-- ==== Sys2Proof/Word.lean ====
section
/-! DEFINITION. The word types of the machine: the byte (register, memory cell, opcode and operand byte;
R7, R8, R9) and the register name (R20). -/

namespace Sys2Proof

/-- An unsigned 8-bit value: what a register or a memory cell holds, an opcode, an operand byte (R7, R8, R9, R10).
Bit 7 is the most significant, bit 0 the least. -/
abbrev Byte := BitVec 8

/-- One of the eight registers R0 to R7 (R20). -/
abbrev Reg := Fin 8

end Sys2Proof
end

