-- ==== Sys2Proof/Config.lean ====
section
/-! DEFINITION. The implementation parameters of 00_scope.md section 3 (R7, R8, the parameter table) and the
two open values of reset: `EQ_RESET` (R27, decision D3) and the reset content of IR (R29, decision D23). -/

namespace Sys2Proof

/-- `MEM_SIZE`: memory has 256 cells, addresses 0 to 255 (R7). -/
abbrev Config.memSize : Nat := 256

/-- The register that is the stack pointer: R7 (R22). -/
abbrev Config.spReg : Reg := 7

/-- `SP_RESET`: the stack pointer starts at 0xF4 (R22). -/
def Config.spReset : Byte := 0xF4#8

/-- `PC_RESET`: execution starts at address 0 (R24, R181). -/
def Config.pcReset : Nat := 0

/-- `EQ_RESET`: the equality flag at reset, "an open Boolean draw" (R27, decision D3, behaviour U10).
A FREE VALUE: it has no body, so no proof can use either value of it (assumption log 2). -/
opaque Config.eqReset : Bool

/-- The content of the Instruction Register at reset: "unspecified" (R29, R180, decision D23, behaviour U11).
A FREE VALUE, overwritten by the first fetch before anything reads it (assumption log 3). -/
opaque Config.irReset : Byte

end Sys2Proof
end

