-- ==== Sys2Proof/Machine/State.lean ====
section
/-! DEFINITION. The architectural state of the block, complete (R32), with the fatal errors it records (R160), the
reasons a step can stop, and the state right after reset (R180). -/

namespace Sys2Proof.Machine

open Sys2Proof

/-- Which access an OutOfRange error is about (R160, "information recorded"). -/
inductive Access where
  /-- The opcode fetch, with its address (R81). -/
  | fetch
  /-- An operand byte's fetch, with its address (R82). -/
  | operand
  /-- A register operand, with its index (R64). -/
  | registerIndex
  /-- A stack cell's address (R145 a). -/
  | stackAddress
  /-- An incremented stack pointer (R145 b). -/
  | stackPointer
  /-- The return address of a CALL (R145 c). -/
  | returnAddress
  /-- A write of the host's loader, with its address (R183); never recorded by the core. -/
  | load
  deriving DecidableEq, Repr

/-- The kinds of fatal error with the information each records (R160). -/
inductive FatalError where
  /-- "malformed program file": the host's loader only, never the core (R183). -/
  | formatError
  /-- "Memory or Register index outside bounds": which access, and the offending value as the integer that was
  computed (R40: it can be 256 or -1). -/
  | outOfRange (access : Access) (value : Int)
  /-- "opcode with no Dispatch Table entry": the opcode byte (R66). -/
  | unknownInstruction (opcode : Byte)
  /-- "ALU invoked with an operation name not implemented": nothing in this block raises it (R85). -/
  | unsupportedOperation
  /-- "divisor register is zero": the divisor register (R112). -/
  | divisionByZero (reg : Reg)
  /-- A read of a register that holds no value (R23). -/
  | uninitialisedRegister (reg : Reg)
  /-- A read of a memory cell that holds no value (R42). -/
  | uninitialisedMemory (address : Nat)
  deriving DecidableEq, Repr

/-- What FAULTED holds: the fatal error (kind and information) and "the address of the instruction that raised it"
(R160, R163). -/
structure FaultRecord where
  error : FatalError
  address : Nat
  deriving DecidableEq, Repr

/-- The run state (R28). -/
inductive RunState where
  | running
  | halted
  | faulted (record : FaultRecord)
  deriving DecidableEq, Repr

/-- The state of the block: everything R32 lists, and the sequence of events the output port has carried (R169). -/
structure State where
  /-- R0 to R7, "each either a byte or no value" (R20, R23, R32); R7 is the stack pointer (R22). -/
  regs : Vector (Option Byte) 8
  /-- The program counter, "a natural number that never wraps" (R24). -/
  pc : Nat
  /-- The equality flag EQ (R26). -/
  eqFlag : Bool
  /-- RUNNING, HALTED or FAULTED (R28). -/
  run : RunState
  /-- The Instruction Register (R29). -/
  ir : Byte
  /-- The memory cells that hold a value, as (address, byte) with addresses rising; an address that is not listed
  holds no value (R30). -/
  mem : List Host.Cell
  /-- The bytes the output port has carried, oldest first (R169). Not core state: no instruction reads it. -/
  output : List Byte
  deriving DecidableEq, Repr

/-- Why a step answers no next state. A fatal error of R160 is NOT among these: raising one is a next state, in
FAULTED (R163). -/
inductive Fault where
  /-- Raised by `step` in HALTED: "In HALTED and in FAULTED the core takes no further step" (R28). Safe. -/
  | halted
  /-- Raised by `step` in FAULTED, for the same reason (R28, R162). Safe. -/
  | faulted
  deriving DecidableEq, Repr

/-- Why an instruction has no meaning. -/
inductive Refusal where
  /-- Raised by an arm of `exec` that has no meaning yet; no arm of this model does. Safe. -/
  | notModelled (mnemonic : String)
  deriving DecidableEq, Repr

/-- The state after reset (R180), before an image is loaded, for a draw of the equality flag (`EQ_RESET`, R27) and of
the unspecified content of IR (R29). R0 to R6 and every memory cell hold no value (R23, R30); R7 is 0xF4 (R22). -/
def State.resetWith (eqDraw : Bool) (irDraw : Byte) : State where
  regs := #v[none, none, none, none, none, none, none, some Config.spReset]
  pc := Config.pcReset
  eqFlag := eqDraw
  run := .running
  ir := irDraw
  mem := []
  output := []

/-- The state after reset (R180), its two open values being the free values of Config. -/
def State.reset : State := State.resetWith Config.eqReset Config.irReset

end Sys2Proof.Machine
end

