-- ==== Sys2Proof/Machine/Ops.lean ====
section
/-! DEFINITION. The named operations over memory and registers: the primitives of R11, and taking a fatal error (R163).
There is no return from one: "no return-from-trap instruction exists" (R166). -/

namespace Sys2Proof.Machine

open Sys2Proof

/-! ### Memory -/

/-- The byte the cell at an address holds, or none where it holds no value (R30). -/
def Memory.cell : List Host.Cell → Nat → Option Byte
  | [], _ => none
  | (k, v) :: m, a => if k = a then some v else Memory.cell m a

/-- Memory with the cell at an address holding a byte (R43), its addresses still rising. -/
def Memory.put : List Host.Cell → Nat → Byte → List Host.Cell
  | [], a, v => [(a, v)]
  | (k, w) :: m, a, v =>
    if a < k then (a, v) :: (k, w) :: m
    else if a = k then (a, v) :: m
    else (k, w) :: Memory.put m a v

/-- The canonical form: addresses strictly rising and all below 256 (R7). An unlisted address reads as no value, which
no entry can equal. -/
def Memory.wf (m : List Host.Cell) : Bool :=
  decide (m.Pairwise (fun c d => c.1 < d.1)) && m.all (fun c => decide (c.1 < Config.memSize))

/-- The byte at an address of a state's memory, if the cell holds one. -/
def State.byteAt (s : State) (a : Nat) : Option Byte := Memory.cell s.mem a

/-- The memory address decoder: accepts 0..255, rejects any other computed address with OutOfRange (R40). -/
def addressDecode (access : Access) (a : Int) : Except FatalError Nat :=
  match a with
  | .ofNat n => if n < Config.memSize then .ok n else .error (.outOfRange access (.ofNat n))
  | .negSucc n => .error (.outOfRange access (.negSucc n))

/-- `MemRead(a, 1)` (R42). -/
def memRead (access : Access) (a : Int) (s : State) : Except FatalError Byte :=
  match addressDecode access a with
  | .error e => .error e
  | .ok n =>
    match s.byteAt n with
    | none => .error (.uninitialisedMemory n)
    | some v => .ok v

/-- Cell `n` holding `v`, every other cell as before (R43, R46). -/
def storeByte (n : Nat) (v : Byte) (s : State) : State := { s with mem := Memory.put s.mem n v }

/-- `MemWrite(a, 1, v)` (R43). -/
def memWrite (access : Access) (a : Int) (v : Byte) (s : State) : Except FatalError State :=
  match addressDecode access a with
  | .error e => .error e
  | .ok n => .ok (storeByte n v s)

/-! ### Registers -/

/-- What a register holds: a byte, or no value (R23, R32). -/
def State.reg (s : State) (r : Reg) : Option Byte := s.regs.get r

/-- `x[i]`: read a register; a register that holds no value raises UninitialisedRegister (R11, R23). -/
def readReg (r : Reg) (s : State) : Except FatalError Byte :=
  match s.reg r with
  | none => .error (.uninitialisedRegister r)
  | some v => .ok v

/-- `x[i] <- v`: write a register with `v mod 256` (R11, R21). -/
def writeReg (r : Reg) (v : Nat) (s : State) : State :=
  { s with regs := s.regs.set r (some (BitVec.ofNat 8 v)) }

/-! ### Program counter, flag, run state, instruction register, output port -/

/-- `pc <- t` (R24). -/
def setPc (t : Nat) (s : State) : State := { s with pc := t }

/-- `pc <- pc + n`, with no wrap (R24, R25). -/
def advancePc (n : Nat) (s : State) : State := setPc (s.pc + n) s

/-- `EQ <- b` (R26). -/
def setEq (b : Bool) (s : State) : State := { s with eqFlag := b }

/-- `IR <- op` (R29, R81). -/
def setIr (op : Byte) (s : State) : State := { s with ir := op }

/-- `Output(v)`: one 8-bit event on the output port, after those before it (R169). -/
def emit (v : Byte) (s : State) : State := { s with output := s.output ++ [v] }

/-- `halt`: set the run state to HALTED (R11, R28). -/
def halt (s : State) : State := { s with run := .halted }

/-! ### Fatal errors -/

/-- `raise K(info)`, on the state before the instruction's writes: FAULTED with the error and the address of the
instruction, which pc holds; nothing else changes (R163). -/
def raise (e : FatalError) (s : State) : State :=
  { s with run := .faulted { error := e, address := s.pc } }

/-- The end of an instruction: its effect where it raised nothing, else the fatal error taken on the state before the
instruction, which "discards every write of that instruction" (R11, R163). -/
def commit (s : State) (effect : Except FatalError State) : State :=
  match effect with
  | .ok t => t
  | .error e => raise e s

end Sys2Proof.Machine
end

