-- ==== Sys2Proof/Machine/Flags.lean ====
section
/-! DEFINITION. The one flag computation of the machine: CMP's equality (R26, R114). There is no other flag. -/

namespace Sys2Proof.Machine

open Sys2Proof

/-- EQ after CMP: "true iff the two 8-bit values are equal", false otherwise (R26, R114). -/
def equalityFlag (x y : Byte) : Bool := decide (x = y)

end Sys2Proof.Machine
end

