-- ==== Sys2Proof/Syntax.lean ====
section
/-! DEFINITION. The instruction set: one constructor for each of the fifteen rows of the dispatch table (R3, R65). -/

namespace Sys2Proof

/-- An instruction with its operand BYTES, as they stand in memory: "a register operand's byte is the register index
itself, used whole", an immediate's byte is the value itself (R60, R62). That a register operand byte is 0..7 is
`Instr.wellFormed` (R64). -/
inductive Instr where
  /-- HLT: halt (R100). -/
  | hlt
  /-- LDI Ra,v: load immediate (R101). -/
  | ldi (a v : Byte)
  /-- PRN Ra: print register (R102). -/
  | prn (a : Byte)
  /-- MULT Ra,Rb: multiply registers (R110). -/
  | mult (a b : Byte)
  /-- ADD Ra,Rb: add registers (R111). -/
  | add (a b : Byte)
  /-- DIV Ra,Rb: divide registers (R112). -/
  | div (a b : Byte)
  /-- AND Ra,Rb: bitwise AND of registers (R113). -/
  | and (a b : Byte)
  /-- CMP Ra,Rb: compare registers for equality (R114). -/
  | cmp (a b : Byte)
  /-- JMP Ra: jump to the address in a register (R130). -/
  | jmp (a : Byte)
  /-- JEQ Ra: jump if equal (R131). -/
  | jeq (a : Byte)
  /-- JNE Ra: jump if not equal (R132). -/
  | jne (a : Byte)
  /-- PUSH Ra: push a register (R141). -/
  | push (a : Byte)
  /-- POP Ra: pop into a register (R142). -/
  | pop (a : Byte)
  /-- CALL Ra: call the subroutine at the address in a register (R143). -/
  | call (a : Byte)
  /-- RET: return from subroutine (R144). -/
  | ret
  deriving DecidableEq, Repr

end Sys2Proof
end

