-- ==== Sys2Proof/WellFormed.lean ====
section
/-! DEFINITION. When an instruction is well formed: every register operand byte is an index 0..7 (R64). -/

namespace Sys2Proof

/-- A register operand byte names a register: it is 0..7 (R20, R64). -/
def regIndexOk (b : Byte) : Bool := decide (b.toNat < 8)

/-- The register operands of the instruction's format (R60) are all 0..7 (R64). An immediate is never checked (R63). -/
def Instr.wellFormed : Instr → Bool
  | .hlt => true
  | .ldi a _ => regIndexOk a
  | .prn a => regIndexOk a
  | .mult a b => regIndexOk a && regIndexOk b
  | .add a b => regIndexOk a && regIndexOk b
  | .div a b => regIndexOk a && regIndexOk b
  | .and a b => regIndexOk a && regIndexOk b
  | .cmp a b => regIndexOk a && regIndexOk b
  | .jmp a => regIndexOk a
  | .jeq a => regIndexOk a
  | .jne a => regIndexOk a
  | .push a => regIndexOk a
  | .pop a => regIndexOk a
  | .call a => regIndexOk a
  | .ret => true

end Sys2Proof
end

