-- ==== Sys2Proof/Decode.lean ====
section
/-! DEFINITION. The decoder and the encoder (30_encoding.md): the four formats (R60), the fifteen opcodes (R65),
the decode of a byte sequence, total and rejecting by name (R61, R62, R64, R66), and the encoding of an instruction. -/

namespace Sys2Proof

/-- The four formats of R60. -/
inductive Format where
  /-- Z: the opcode alone. -/
  | z
  /-- R: one register index. -/
  | r
  /-- RR: two register indices. -/
  | rr
  /-- RI: a register index, then an 8-bit immediate. -/
  | ri
  deriving DecidableEq, Repr

/-- The length in bytes of an instruction of a format (R60, R61). -/
def Format.length : Format → Nat
  | .z => 1
  | .r => 2
  | .rr => 3
  | .ri => 3

/-- The fifteen instruction kinds ("a tagged enumeration of instruction kinds", R83), in the order of R65. -/
inductive Opcode where
  | hlt | ldi | prn | mult | add | div | and | cmp | jmp | jeq | jne | push | pop | call | ret
  deriving DecidableEq, Repr

/-- The opcode byte of each kind, in the binary spelling of the dispatch table (R65). -/
def Opcode.byte : Opcode → Byte
  | .hlt  => 0b00000001#8
  | .ldi  => 0b10000010#8
  | .prn  => 0b01000111#8
  | .mult => 0b10100010#8
  | .add  => 0b10100000#8
  | .div  => 0b10100011#8
  | .and  => 0b10101000#8
  | .cmp  => 0b10100111#8
  | .jmp  => 0b01010100#8
  | .jeq  => 0b01010101#8
  | .jne  => 0b01010110#8
  | .push => 0b01000101#8
  | .pop  => 0b01000110#8
  | .call => 0b01010000#8
  | .ret  => 0b00010001#8

/-- The format of each kind (R65). -/
def Opcode.format : Opcode → Format
  | .hlt => .z
  | .ldi => .ri
  | .prn => .r
  | .mult => .rr
  | .add => .rr
  | .div => .rr
  | .and => .rr
  | .cmp => .rr
  | .jmp => .r
  | .jeq => .r
  | .jne => .r
  | .push => .r
  | .pop => .r
  | .call => .r
  | .ret => .z

/-- The length of an instruction is "implied solely by the opcode" (R61). -/
def Opcode.length (o : Opcode) : Nat := o.format.length

/-- The rows of R65, in the dispatch table's order. -/
def Opcode.all : List Opcode :=
  [.hlt, .ldi, .prn, .mult, .add, .div, .and, .cmp, .jmp, .jeq, .jne, .push, .pop, .call, .ret]

/-- The kind an opcode byte stands for, matched on all eight bits (R65); none for the other 241 bytes (R66). -/
def Opcode.ofByte (b : Byte) : Option Opcode := Opcode.all.find? (fun o => o.byte == b)

/-- The instruction of a kind with operand bytes op1 and op2 (R60, R62); an operand the format lacks is ignored. -/
def Opcode.assemble (o : Opcode) (op1 op2 : Byte) : Instr :=
  match o with
  | .hlt => .hlt
  | .ldi => .ldi op1 op2
  | .prn => .prn op1
  | .mult => .mult op1 op2
  | .add => .add op1 op2
  | .div => .div op1 op2
  | .and => .and op1 op2
  | .cmp => .cmp op1 op2
  | .jmp => .jmp op1
  | .jeq => .jeq op1
  | .jne => .jne op1
  | .push => .push op1
  | .pop => .pop op1
  | .call => .call op1
  | .ret => .ret

/-- The first register operand of the format whose byte is above 7, op1 before op2 (R64). -/
def firstBadIndex (f : Format) (op1 op2 : Byte) : Option Byte :=
  match f with
  | .z => none
  | .r => if regIndexOk op1 then none else some op1
  | .ri => if regIndexOk op1 then none else some op1
  | .rr => if regIndexOk op1 then (if regIndexOk op2 then none else some op2) else some op1

/-- Why a byte sequence is no instruction. -/
inductive DecodeError where
  /-- There is no opcode byte. -/
  | noOpcode
  /-- The opcode byte is none of the fifteen of R65 (R66). -/
  | unknownOpcode (op : Byte)
  /-- Operand byte `k` (1 or 2) of a recognised opcode is missing (R82). -/
  | missingOperand (k : Nat)
  /-- A register operand byte is above 7 (R64). -/
  | registerIndex (index : Byte)
  deriving DecidableEq, Repr

/-- The operand bytes op1 and op2 an instruction of `n` bytes has, read in order, and the bytes after them; an operand
the instruction lacks is given as 0 and ignored (R61, R62, R82). -/
def takeOperands (n : Nat) (bs : List Byte) : Except DecodeError (Byte × Byte × List Byte) :=
  match n, bs with
  | 0, bs => .ok (0, 0, bs)
  | 1, bs => .ok (0, 0, bs)
  | 2, [] => .error (.missingOperand 1)
  | 2, a :: bs => .ok (a, 0, bs)
  | _, [] => .error (.missingOperand 1)
  | _, [_] => .error (.missingOperand 2)
  | _, a :: b :: bs => .ok (a, b, bs)

/-- The decoder: reads one instruction from the front of a byte sequence and answers it with the bytes after it, or
the reason it is none, in the order opcode, operand bytes, register indices (R64, R82, R84). -/
def decode (bs : List Byte) : Except DecodeError (Instr × List Byte) :=
  match bs with
  | [] => .error .noOpcode
  | op :: bs =>
    match Opcode.ofByte op with
    | none => .error (.unknownOpcode op)
    | some o =>
      match takeOperands o.length bs with
      | .error e => .error e
      | .ok (a, b, rest) =>
        match firstBadIndex o.format a b with
        | some i => .error (.registerIndex i)
        | none => .ok (o.assemble a b, rest)

/-- The kind of an instruction. -/
def Instr.opcode : Instr → Opcode
  | .hlt => .hlt
  | .ldi _ _ => .ldi
  | .prn _ => .prn
  | .mult _ _ => .mult
  | .add _ _ => .add
  | .div _ _ => .div
  | .and _ _ => .and
  | .cmp _ _ => .cmp
  | .jmp _ => .jmp
  | .jeq _ => .jeq
  | .jne _ => .jne
  | .push _ => .push
  | .pop _ => .pop
  | .call _ => .call
  | .ret => .ret

/-- The operand bytes of an instruction, op1 first (R60). -/
def Instr.operands : Instr → List Byte
  | .hlt => []
  | .ldi a v => [a, v]
  | .prn a => [a]
  | .mult a b => [a, b]
  | .add a b => [a, b]
  | .div a b => [a, b]
  | .and a b => [a, b]
  | .cmp a b => [a, b]
  | .jmp a => [a]
  | .jeq a => [a]
  | .jne a => [a]
  | .push a => [a]
  | .pop a => [a]
  | .call a => [a]
  | .ret => []

/-- The bytes of an instruction, in the order they lie in memory: the opcode, then op1, then op2 (R45, R60). -/
def encode (i : Instr) : List Byte := i.opcode.byte :: i.operands

/-- The operand byte that names a register: "the register index itself" (R62). -/
def regByte (r : Reg) : Byte := BitVec.ofNat 8 r.val

/-- The longest instruction has three bytes (R61). -/
def longestInstr : Nat := 3

/-- The first `longestInstr` bytes, lowest address first, of an instruction whose bits are `w`, bit 0 the least
significant bit of the first byte; bits from `nbits` on are 0. -/
def tableWordBytes (nbits w : Nat) : List Byte :=
  (List.range longestInstr).map (fun k => BitVec.ofNat 8 ((w % 2 ^ nbits) / 256 ^ k))

/-- The instruction the decoder reads from the bytes of a row of the opcode table. -/
def decodeTableWord (nbits w : Nat) : Option Instr :=
  match decode (tableWordBytes nbits w) with
  | .ok (i, _) => some i
  | .error _ => none

end Sys2Proof
end

