-- ==== Sys2Proof/Machine/Operands.lean ====
section
/-! DEFINITION. The operand forms: a register operand byte (R62, R64), LDI's immediate (R63), and the register-indirect
stack access through SP with pre-decrement or post-increment (R140, R145). -/

namespace Sys2Proof.Machine

open Sys2Proof

/-- A register operand: its byte is the register index; a byte above 7 raises OutOfRange with the index (R62, R64). -/
def regOperand (b : Byte) : Except FatalError Reg :=
  if h : b.toNat < 8 then .ok ⟨b.toNat, h⟩ else .error (.outOfRange .registerIndex b.toNat)

/-- An immediate operand: its byte is the value, zero-extended (R62, R63). -/
def immOperand (b : Byte) : Nat := b.toNat

/-- The address a PUSH or CALL stores to: SP - 1, through the address decoder (R140, R145 a). -/
def pushSlot (s : State) : Except FatalError Nat :=
  match readReg Config.spReg s with
  | .error e => .error e
  | .ok sp => addressDecode .stackAddress ((sp.toNat : Int) - 1)

/-- The register operand of a PUSH or CALL, read after SP is decremented to `slot`, so that R7 gives `slot`
(R140, R141, R143). -/
def readAfterDecrement (r : Reg) (slot : Nat) (s : State) : Except FatalError Byte :=
  if r = Config.spReg then .ok (BitVec.ofNat 8 slot) else readReg r s

/-- SP after a POP or RET that finds it at `base`: one more, which must not be 256 (R140, R145 b). -/
def incrementedSp (base : Byte) : Except FatalError Nat :=
  if base.toNat + 1 < Config.memSize then .ok (base.toNat + 1)
  else .error (.outOfRange .stackPointer (base.toNat + 1 : Nat))

/-- The return address of a CALL: the byte after it, which a cell must be able to hold (R143, R145 c). -/
def returnAddress (s : State) : Except FatalError Byte :=
  if s.pc + 2 < Config.memSize then .ok (BitVec.ofNat 8 (s.pc + 2))
  else .error (.outOfRange .returnAddress (s.pc + 2 : Nat))

end Sys2Proof.Machine
end

