-- ==== Sys2Proof/Machine/Alu.lean ====
section
/-! DEFINITION. The ALU instructions MULT, ADD, DIV, AND, CMP (41_alu.md). -/

namespace Sys2Proof.Machine

open Sys2Proof

/-- The two register operands of format RR, checked op1 before op2 (R64), then read, `x[a]` first (41_alu.md): the
registers and their values. -/
def aluOperands (a b : Byte) (s : State) : Except FatalError (Reg × Reg × Byte × Byte) := do
  let ra ← regOperand a
  let rb ← regOperand b
  let x ← readReg ra s
  let y ← readReg rb s
  return (ra, rb, x, y)

/-- The effect shared by the four value operations: compute exactly from `x[a]` and `x[b]`, write `x[a]`, advance pc by
3 (R115). The operation sees the divisor's register for the error it may raise. -/
def aluEffect (f : Reg → Byte → Byte → Except FatalError Nat) (a b : Byte) (s : State) : Except FatalError State := do
  let (ra, rb, x, y) ← aluOperands a b s
  let v ← f rb x y
  return advancePc 3 (writeReg ra v s)

/-- The exact product (R110). -/
def multValue (_ : Reg) (x y : Byte) : Except FatalError Nat := .ok (x.toNat * y.toNat)

/-- The exact sum (R111). -/
def addValue (_ : Reg) (x y : Byte) : Except FatalError Nat := .ok (x.toNat + y.toNat)

/-- The floor quotient of unsigned values; a zero divisor raises DivisionByZero with its register (R112, R116). -/
def divValue (rb : Reg) (x y : Byte) : Except FatalError Nat :=
  if y.toNat = 0 then .error (.divisionByZero rb) else .ok (x.toNat / y.toNat)

/-- The bitwise AND (R113). -/
def andValue (_ : Reg) (x y : Byte) : Except FatalError Nat := .ok (x &&& y).toNat

/-- MULT: multiply registers (R110). -/
def execMult (a b : Byte) (s : State) : Host.Outcome State Fault Refusal := .next (commit s (aluEffect multValue a b s))

/-- ADD: add registers (R111). -/
def execAdd (a b : Byte) (s : State) : Host.Outcome State Fault Refusal := .next (commit s (aluEffect addValue a b s))

/-- DIV: divide registers (R112). -/
def execDiv (a b : Byte) (s : State) : Host.Outcome State Fault Refusal := .next (commit s (aluEffect divValue a b s))

/-- AND: bitwise AND of registers (R113). -/
def execAnd (a b : Byte) (s : State) : Host.Outcome State Fault Refusal := .next (commit s (aluEffect andValue a b s))

/-- The effect of CMP (R114). -/
def cmpEffect (a b : Byte) (s : State) : Except FatalError State := do
  let (_, _, x, y) ← aluOperands a b s
  return advancePc 3 (setEq (equalityFlag x y) s)

/-- CMP: compare registers for equality (R114). -/
def execCmp (a b : Byte) (s : State) : Host.Outcome State Fault Refusal := .next (commit s (cmpEffect a b s))

end Sys2Proof.Machine
end

