-- ==== Sys2Proof/Machine/Branch.lean ====
section
/-! DEFINITION. The register-indirect jumps JMP, JEQ, JNE (42_branch.md). -/

namespace Sys2Proof.Machine

open Sys2Proof

/-- A jump that is taken when `taken`: its register is checked in any case (R64, decision D9) and read only when the
jump is taken (decision D22); a jump not taken advances pc by 2 (R130, R131, R132). -/
def jumpEffect (taken : Bool) (a : Byte) (s : State) : Except FatalError State := do
  let r ← regOperand a
  if taken then
    let t ← readReg r s
    return setPc t.toNat s
  else
    return advancePc 2 s

/-- JMP: jump to the address in a register (R130). -/
def execJmp (a : Byte) (s : State) : Host.Outcome State Fault Refusal := .next (commit s (jumpEffect true a s))

/-- JEQ: jump if EQ (R131). -/
def execJeq (a : Byte) (s : State) : Host.Outcome State Fault Refusal := .next (commit s (jumpEffect s.eqFlag a s))

/-- JNE: jump if not EQ (R132). -/
def execJne (a : Byte) (s : State) : Host.Outcome State Fault Refusal := .next (commit s (jumpEffect (!s.eqFlag) a s))

end Sys2Proof.Machine
end

