-- ==== Sys2Proof/Machine/Stack.lean ====
section
/-! DEFINITION. The stack instructions PUSH, POP, CALL, RET (43_stack.md). -/

namespace Sys2Proof.Machine

open Sys2Proof

/-- The effect of PUSH (R141). -/
def pushEffect (a : Byte) (s : State) : Except FatalError State := do
  let r ← regOperand a
  let slot ← pushSlot s
  let v ← readAfterDecrement r slot s
  let t ← memWrite .stackAddress slot v s
  return advancePc 2 (writeReg Config.spReg slot t)

/-- PUSH: push a register (R141). -/
def execPush (a : Byte) (s : State) : Host.Outcome State Fault Refusal := .next (commit s (pushEffect a s))

/-- The effect of POP: `x[a]` is written, then SP, so that POP R7 leaves the popped byte plus one (R142). -/
def popEffect (a : Byte) (s : State) : Except FatalError State := do
  let r ← regOperand a
  let sp ← readReg Config.spReg s
  let v ← memRead .stackAddress sp.toNat s
  let sp2 ← incrementedSp (if r = Config.spReg then v else sp)
  return advancePc 2 (writeReg Config.spReg sp2 (writeReg r v.toNat s))

/-- POP: pop into a register (R142). -/
def execPop (a : Byte) (s : State) : Host.Outcome State Fault Refusal := .next (commit s (popEffect a s))

/-- The effect of CALL (R143). -/
def callEffect (a : Byte) (s : State) : Except FatalError State := do
  let r ← regOperand a
  let slot ← pushSlot s
  let ret ← returnAddress s
  let target ← readAfterDecrement r slot s
  let t ← memWrite .stackAddress slot ret s
  return setPc target.toNat (writeReg Config.spReg slot t)

/-- CALL: call the subroutine at the address in a register (R143). -/
def execCall (a : Byte) (s : State) : Host.Outcome State Fault Refusal := .next (commit s (callEffect a s))

/-- The effect of RET (R144). -/
def retEffect (s : State) : Except FatalError State := do
  let sp ← readReg Config.spReg s
  let target ← memRead .stackAddress sp.toNat s
  let sp2 ← incrementedSp sp
  return setPc target.toNat (writeReg Config.spReg sp2 s)

/-- RET: return from subroutine (R144). -/
def execRet (s : State) : Host.Outcome State Fault Refusal := .next (commit s (retEffect s))

end Sys2Proof.Machine
end

