-- ==== Sys2Proof/Machine/System.lean ====
section
/-! DEFINITION. Halt, load immediate and output: HLT, LDI, PRN (40_system_load_io.md). -/

namespace Sys2Proof.Machine

open Sys2Proof

/-- HLT: the run state becomes HALTED; pc keeps the address of the HLT (R100, decision D17). -/
def execHlt (s : State) : Host.Outcome State Fault Refusal := .next (halt s)

/-- The effect of LDI (R101). -/
def ldiEffect (a v : Byte) (s : State) : Except FatalError State := do
  let r ← regOperand a
  return advancePc 3 (writeReg r (immOperand v) s)

/-- LDI: load immediate (R101). -/
def execLdi (a v : Byte) (s : State) : Host.Outcome State Fault Refusal := .next (commit s (ldiEffect a v s))

/-- The effect of PRN (R102). -/
def prnEffect (a : Byte) (s : State) : Except FatalError State := do
  let r ← regOperand a
  let v ← readReg r s
  return advancePc 2 (emit v s)

/-- PRN: print register (R102). -/
def execPrn (a : Byte) (s : State) : Host.Outcome State Fault Refusal := .next (commit s (prnEffect a s))

end Sys2Proof.Machine
end

