-- ==== Sys2Proof/Machine/Dispatch.lean ====
section
/-! DEFINITION. Dispatch: the meaning of each instruction, "dispatched through a single match" (R83). -/

namespace Sys2Proof.Machine

open Sys2Proof

/-- `execute(ins, op1, op2)` of the step (R84). -/
def exec (i : Instr) (s : State) : Host.Outcome State Fault Refusal :=
  match i with
  | .hlt => Sys2Proof.Machine.execHlt s
  | .ldi a v => Sys2Proof.Machine.execLdi a v s
  | .prn a => Sys2Proof.Machine.execPrn a s
  | .mult a b => Sys2Proof.Machine.execMult a b s
  | .add a b => Sys2Proof.Machine.execAdd a b s
  | .div a b => Sys2Proof.Machine.execDiv a b s
  | .and a b => Sys2Proof.Machine.execAnd a b s
  | .cmp a b => Sys2Proof.Machine.execCmp a b s
  | .jmp a => Sys2Proof.Machine.execJmp a s
  | .jeq a => Sys2Proof.Machine.execJeq a s
  | .jne a => Sys2Proof.Machine.execJne a s
  | .push a => Sys2Proof.Machine.execPush a s
  | .pop a => Sys2Proof.Machine.execPop a s
  | .call a => Sys2Proof.Machine.execCall a s
  | .ret => Sys2Proof.Machine.execRet s

end Sys2Proof.Machine
end

