-- ==== Sys2Proof/Machine/Fetch.lean ====
section
/-! DEFINITION. The fetch and decode stages of a step (R81, R82, R64), and placing an instruction's bytes where the next
fetch reads them. -/

namespace Sys2Proof.Machine

open Sys2Proof

/-- Fetch: the opcode byte at pc (R81). -/
def fetchOpcode (s : State) : Except FatalError Byte := memRead .fetch s.pc s

/-- The k-th operand byte of an instruction of `n` bytes: read only where the instruction has one (R82). -/
def fetchOperand (n k : Nat) (s : State) : Except FatalError Byte :=
  if k < n then memRead .operand ((s.pc + k : Nat) : Int) s else .ok 0

/-- Decode: look the opcode up, then read the operand bytes its length implies, then check the register indices
(R82, R64, R84). -/
def fetchInstr (op : Byte) (s : State) : Except FatalError Instr :=
  match Opcode.ofByte op with
  | none => .error (.unknownInstruction op)
  | some o => do
    let op1 ← fetchOperand o.length 1 s
    let op2 ← fetchOperand o.length 2 s
    match firstBadIndex o.format op1 op2 with
    | some i => .error (.outOfRange .registerIndex i.toNat)
    | none => return o.assemble op1 op2

/-- Memory with bytes placed at consecutive addresses from `a`; a byte whose address is above 255 is left out, since no
cell has it (R40). -/
def placeBytes : Nat → List Byte → List Host.Cell → List Host.Cell
  | _, [], m => m
  | a, b :: bs, m => placeBytes (a + 1) bs (if a < Config.memSize then Memory.put m a b else m)

/-- The instruction's bytes at pc, in the RUNNING state that a fetch needs (R80). -/
def placeAtPc (bs : List Byte) (s : State) : State :=
  { s with mem := placeBytes s.pc bs s.mem, run := .running }

end Sys2Proof.Machine
end

