-- ==== Sys2Proof/Machine/Step.lean ====
section
/-! DEFINITION. One step: a whole turn of the fetch-decode-execute loop (R80, R84). -/

namespace Sys2Proof.Machine

open Sys2Proof

/-- The step of R84. It exists only in RUNNING (R28, R80). The fetched opcode stays in IR even when the step then
faults; a fetch that itself faults leaves IR unchanged (R29, R84, R163). -/
def step (s : State) : Host.Outcome State Fault Refusal :=
  match s.run with
  | .halted => .fault .halted
  | .faulted _ => .fault .faulted
  | .running =>
    match fetchOpcode s with
    | .error e => .next (raise e s)
    | .ok op =>
      match fetchInstr op (setIr op s) with
      | .error e => .next (raise e (setIr op s))
      | .ok i => exec i (setIr op s)

/-- The state with an instruction of the opcode table stored at pc, where `step` fetches its next instruction
(assumption log 7). -/
def State.withFetchWord (s : State) (nbits w : Nat) : State := placeAtPc (tableWordBytes nbits w) s

end Sys2Proof.Machine
end

