-- ==== Sys2Proof/Machine/Ports.lean ====
section
/-! DEFINITION. The status port the host reads (R161, R168). The output port is `emit` (R169), the load port is
Machine/Loader.lean (R170, R183). -/

namespace Sys2Proof.Machine

open Sys2Proof

/-- The number of a fatal error's kind (R161, decision D12). -/
def FatalError.code : FatalError → Nat
  | .formatError => 1
  | .outOfRange _ _ => 2
  | .unknownInstruction _ => 3
  | .unsupportedOperation => 4
  | .divisionByZero _ => 5
  | .uninitialisedRegister _ => 6
  | .uninitialisedMemory _ => 7

/-- What the status port shows: the run state, and when FAULTED "the fault code of rule R161, the information of rule
R160 and the faulting address" (R168). The information is in the error itself. -/
inductive Status where
  | running
  | halted
  | faulted (code : Nat) (error : FatalError) (address : Nat)
  deriving DecidableEq, Repr

/-- The status port: what R168 lists, and nothing else. DESIGN CHOICE (assumption log 35): IR is not in it, since R168's list
does not name IR; the visibility R29 gives IR is `statusDiagnosticIr`. -/
def statusPort (s : State) : Status :=
  match s.run with
  | .running => .running
  | .halted => .halted
  | .faulted r => .faulted r.error.code r.error r.address

/-- IR as the status port's diagnostics show it: "its value is visible only through the status port's diagnostics" (R29).
DESIGN CHOICE (assumption log 35): it is shown in every run state, beside what R168 lists. -/
def statusDiagnosticIr (s : State) : Byte := s.ir

/-- The fault code on the status port; 0 when there is no fault (R161). -/
def faultCode (s : State) : Nat :=
  match s.run with
  | .faulted r => r.error.code
  | _ => 0

/-- The end of a run as the host maps it: HALTED to success, FAULTED to failure (R168); none while RUNNING (R171). -/
def hostSuccess (s : State) : Option Bool :=
  match s.run with
  | .running => none
  | .halted => some true
  | .faulted _ => some false

end Sys2Proof.Machine
end

