-- ==== Sys2Proof/Machine/Loader.lean ====
section
/-! DEFINITION. The load port: how a program image comes into memory before the first step (R170, R183). The text form
of a program file is outside the block (R5 a); the part of it R183 states is here so that FormatError has a cause. -/

namespace Sys2Proof.Machine

open Sys2Proof

/-- The bytes of an image written "into consecutive Memory addresses starting at" `a`; a write past 255 is OutOfRange
(R183, R40). -/
def writeImage (a : Nat) (image : List Byte) (s : State) : Except FatalError State :=
  match image with
  | [] => .ok s
  | b :: bs =>
    match memWrite .load (a : Int) b s with
    | .error e => .error e
    | .ok t => writeImage (a + 1) bs t

/-- The state a run starts from: reset, for a draw of its two open values, with the image loaded at address 0; an error
means the load failed and no run starts (R180, R183, decision D19). -/
def State.loadWith (eqDraw : Bool) (irDraw : Byte) (image : List Byte) : Except FatalError State :=
  writeImage 0 image (State.resetWith eqDraw irDraw)

/-- The state a run starts from, with the free values of Config. -/
def State.load (image : List Byte) : Except FatalError State := writeImage 0 image State.reset

/-- Blanks at the ends of a line that the loader ignores (assumption log 10). -/
def isBlank (c : Char) : Bool := c == ' ' || c == '\t' || c == '\r'

/-- The significant part of a line: before a `#` comment, without blanks at its ends (R183). -/
def significant (line : List Char) : List Char :=
  let code := (line.takeWhile (· != '#')).dropWhile isBlank
  (code.reverse.dropWhile isBlank).reverse

/-- A base-2 integer, most significant digit first; none for a token with another character (R183). -/
def parseBinary (digits : List Char) : Option Nat :=
  digits.foldl (fun acc c => acc.bind (fun n => if c = '0' then some (2 * n) else if c = '1' then some (2 * n + 1) else none))
    (some 0)

/-- The byte of one line of a program file: none for a blank or comment-only line, FormatError for a line that is not a
base-2 integer or whose value exceeds 255 (R183, decision D19). -/
def parseLine (line : List Char) : Except FatalError (Option Byte) :=
  match significant line with
  | [] => .ok none
  | digits =>
    match parseBinary digits with
    | none => .error .formatError
    | some n => if n < 256 then .ok (some (BitVec.ofNat 8 n)) else .error .formatError

/-- The image of a program file given by its lines (R183). -/
def parseImage : List (List Char) → Except FatalError (List Byte)
  | [] => .ok []
  | line :: lines =>
    match parseLine line with
    | .error e => .error e
    | .ok b =>
      match parseImage lines with
      | .error e => .error e
      | .ok bs => .ok (b.toList ++ bs)

/-- Load a program file: parse its lines, then write the image (R183). -/
def State.loadFile (lines : List (List Char)) : Except FatalError State :=
  match parseImage lines with
  | .error e => .error e
  | .ok image => State.load image

end Sys2Proof.Machine
end

