-- ==== Sys2Proof/Safety.lean ====
section
/-! DEFINITION. The terms claims are written in: the invariant of the machine, the ends of a run (R187), which parts of
two states agree, and raising a fatal error. -/

namespace Sys2Proof.Machine

open Sys2Proof

/-- The invariant of the machine. -/
structure State.Inv (s : State) : Prop where
  /-- Memory is in its canonical form, with no address outside 0..255 (R7, R40). -/
  memCanonical : Memory.wf s.mem = true
  /-- R7 "is written at reset and so always holds a value" (R23). -/
  spHoldsValue : (s.reg Config.spReg).isSome = true
  /-- "values 0..256 reachable" (R24). -/
  pcInRange : s.pc ≤ 256
  /-- FAULTED holds "the faulting instruction's address (which pc still holds)" (R163). -/
  faultAtPc : ∀ r, s.run = .faulted r → r.address = s.pc
  /-- IR "after HALTED holds 0x01" (R29). -/
  haltedIr : s.run = .halted → s.ir = 0x01#8
  /-- "pc keeps the address of the HLT" (R100). -/
  haltedAtHlt : s.run = .halted → s.byteAt s.pc = some 0x01#8

/-- A run's good end: HALTED, "the only final state a claim about a program may call a good end" (R187). -/
def State.goodEnd (s : State) : Prop := s.run = .halted

/-- An instruction's outcome is a fatal error: the next state is the state before it with the error raised (R163). -/
def Raises (outcome : Host.Outcome State Fault Refusal) (e : FatalError) (s : State) : Prop := outcome = .next (raise e s)

/-- The frame of an instruction that may write the registers `dests` and the memory cells `slots`: every other register
and every other byte of memory reads as before, and IR is as before. EQ, the run state and the output port are said
beside it. -/
structure Frame (dests : List Reg) (slots : List Nat) (s t : State) : Prop where
  regs : ∀ r, r ∉ dests → t.reg r = s.reg r
  mem : ∀ a, a ∉ slots → t.byteAt a = s.byteAt a
  ir : t.ir = s.ir

/-- The bytes a fetch at pc can read, lowest address first: up to the longest instruction, ending before the first cell
that holds no value. -/
def State.window (s : State) : List Byte :=
  match s.byteAt s.pc, s.byteAt (s.pc + 1), s.byteAt (s.pc + 2) with
  | some b0, some b1, some b2 => [b0, b1, b2]
  | some b0, some b1, none => [b0, b1]
  | some b0, none, _ => [b0]
  | none, _, _ => []

end Sys2Proof.Machine
end

