-- ==== Sys2Proof/Certificates/Slice0/Obligations.lean ====
section
/-! DEFINITION. The statements for the provers. Each docstring names the rules of spec/ it formalises. Where a clause rests
on a decision of 92_eei_decisions.md (the spec's own choice, the document being silent) or on an inference the spec marks
`[derived]`, the statement's basis is 'derived' and the docstring names the decision. -/

open Sys2Proof Sys2Proof.Machine

/-! ### Encoding and decoding -/

/-- Decoding the encoding of a well-formed instruction gives that instruction back and leaves the bytes after it
(R45, R60, R61, R62, R65). -/
def Obligations.DecodeOfEncode : Prop :=
  ∀ (i : Instr) (rest : List Byte), i.wellFormed = true → decode (encode i ++ rest) = .ok (i, rest)

/-- The decoder accepts nothing but encodings: a byte sequence it reads an instruction from is that instruction's
encoding followed by the rest, and the instruction is well formed (R64, R65, R66). -/
def Obligations.DecodeAcceptsOnlyEncodings : Prop :=
  ∀ (bs rest : List Byte) (i : Instr), decode bs = .ok (i, rest) → i.wellFormed = true ∧ bs = encode i ++ rest

/-- Every byte value outside the fifteen of R65 is illegal as an opcode: the decoder rejects it by name whatever follows,
and a step that fetches it raises UnknownInstruction with the opcode, IR holding it; there are 241 such values, 0x00
among them. Operand bytes have no illegal values other than register indices above 7: a recognised opcode with any other
operand bytes decodes (R66). -/
def Obligations.OtherOpcodesAreIllegal : Prop :=
  let table : List Byte := [0x01, 0x82, 0x47, 0xA2, 0xA0, 0xA3, 0xA8, 0xA7, 0x54, 0x55, 0x56, 0x45, 0x46, 0x50, 0x11]
  (∀ (op : Byte) (rest : List Byte), op ∉ table → decode (op :: rest) = .error (.unknownOpcode op)) ∧
  (∀ (op : Byte) (s : State), op ∉ table → s.run = .running → s.pc < 256 → s.byteAt s.pc = some op →
    Raises (step s) (.unknownInstruction op) (setIr op s)) ∧
  ((List.range 256).filter (fun n => decide (BitVec.ofNat 8 n ∉ table))).length = 241 ∧ (0x00#8 : Byte) ∉ table ∧
  (∀ op ∈ table, ∃ o : Opcode, o.byte = op ∧ ∀ (op1 op2 : Byte) (rest : List Byte), (o.assemble op1 op2).wellFormed = true →
    ∃ rest', decode (op :: op1 :: op2 :: rest) = .ok (o.assemble op1 op2, rest'))

/-- The length of a decoded instruction is implied solely by its opcode byte: 1 byte for HLT and RET, 2 for PRN, JMP, JEQ,
JNE, PUSH, POP and CALL, 3 for LDI, MULT, ADD, DIV, AND and CMP (R61). -/
def Obligations.LengthImpliedByOpcode : Prop :=
  ∀ (op : Byte) (bs rest : List Byte) (i : Instr), decode (op :: bs) = .ok (i, rest) →
    (op ∈ ([0x01, 0x11] : List Byte) → (op :: bs).length = rest.length + 1) ∧
    (op ∈ ([0x47, 0x54, 0x55, 0x56, 0x45, 0x46, 0x50] : List Byte) → (op :: bs).length = rest.length + 2) ∧
    (op ∈ ([0x82, 0xA2, 0xA0, 0xA3, 0xA8, 0xA7] : List Byte) → (op :: bs).length = rest.length + 3) ∧
    (op ∈ ([0x01, 0x11] ++ [0x47, 0x54, 0x55, 0x56, 0x45, 0x46, 0x50] ++ [0x82, 0xA2, 0xA0, 0xA3, 0xA8, 0xA7] : List Byte))

/-- A word of each of the fifteen rows, written out from R65, decodes to its instruction; 0xA1, which fits the pattern of
R67, does not decode. -/
def Obligations.TableWordsDecode : Prop :=
  decodeTableWord 8 0x01 = some .hlt ∧ decodeTableWord 24 0x2A0382 = some (.ldi 3 0x2A) ∧
  decodeTableWord 16 0x0447 = some (.prn 4) ∧ decodeTableWord 24 0x0201A2 = some (.mult 1 2) ∧
  decodeTableWord 24 0x0201A0 = some (.add 1 2) ∧ decodeTableWord 24 0x0201A3 = some (.div 1 2) ∧
  decodeTableWord 24 0x0201A8 = some (.and 1 2) ∧ decodeTableWord 24 0x0201A7 = some (.cmp 1 2) ∧
  decodeTableWord 16 0x0554 = some (.jmp 5) ∧ decodeTableWord 16 0x0555 = some (.jeq 5) ∧
  decodeTableWord 16 0x0556 = some (.jne 5) ∧ decodeTableWord 16 0x0645 = some (.push 6) ∧
  decodeTableWord 16 0x0646 = some (.pop 6) ∧ decodeTableWord 16 0x0750 = some (.call 7) ∧
  decodeTableWord 8 0x11 = some .ret ∧ decodeTableWord 24 0x0201A1 = none

/-- The bit pattern the fifteen opcodes share: bits 7:6 are the number of operand bytes, bit 5 is 1 exactly in the ALU
instructions, bit 4 is 1 exactly in JMP, JEQ, JNE, CALL and RET. R67 marks the pattern as the spec's own inference
(`[derived: from the table of rule R65]`). -/
def Obligations.OpcodeBitPattern : Prop :=
  ∀ (o : Opcode), o.byte.toNat / 64 = o.length - 1 ∧
    (o.byte.getLsbD 5 = true ↔ o ∈ [Opcode.mult, .add, .div, .and, .cmp]) ∧
    (o.byte.getLsbD 4 = true ↔ o ∈ [Opcode.jmp, .jeq, .jne, .call, .ret])

/-! ### The step -/

/-- In RUNNING, where the bytes at pc decode to an instruction, the step is that instruction executed on the state with
its opcode in IR; pc is the instruction's own address while it executes (R24, R80, R81, R82, R83, R84). -/
def Obligations.StepRunsDecodedInstruction : Prop :=
  ∀ (s : State) (i : Instr) (rest : List Byte), s.run = .running → Memory.wf s.mem = true →
    decode s.window = .ok (i, rest) → step s = exec i { s with ir := i.opcode.byte }

/-- The errors of the fetch stage, in the order of R164 (1) to (5): pc above 255; the opcode cell unwritten; the opcode
unknown; the op1 cell past 255, then unwritten; the op2 cell past 255, then unwritten. IR holds the opcode once the opcode
fetch has succeeded. The order is the spec's decision D13, the unwritten cells its decision D5, reading only the operand
bytes the length implies its decision D8. -/
def Obligations.FetchErrorsInOrder : Prop :=
  ∀ (s : State), s.run = .running → Memory.wf s.mem = true →
    (256 ≤ s.pc → Raises (step s) (.outOfRange .fetch s.pc) s) ∧
    (s.pc < 256 → s.byteAt s.pc = none → Raises (step s) (.uninitialisedMemory s.pc) s) ∧
    (∀ op, s.byteAt s.pc = some op →
      (Opcode.ofByte op = none → Raises (step s) (.unknownInstruction op) (setIr op s)) ∧
      (∀ o, Opcode.ofByte op = some o →
        (2 ≤ o.length → s.pc = 255 → Raises (step s) (.outOfRange .operand 256) (setIr op s)) ∧
        (2 ≤ o.length → s.pc < 255 → s.byteAt (s.pc + 1) = none →
          Raises (step s) (.uninitialisedMemory (s.pc + 1)) (setIr op s)) ∧
        (o.length = 3 → (s.byteAt (s.pc + 1)).isSome = true → s.pc = 254 →
          Raises (step s) (.outOfRange .operand 256) (setIr op s)) ∧
        (o.length = 3 → (s.byteAt (s.pc + 1)).isSome = true → s.pc < 254 → s.byteAt (s.pc + 2) = none →
          Raises (step s) (.uninitialisedMemory (s.pc + 2)) (setIr op s))))

/-- Once the operand bytes are fetched, a register operand above 7 raises OutOfRange with the index, op1 before op2, and an
immediate is not checked (R64, R164 (6) and (7)). That the check is made in the decode stage, used or not, is the spec's
decision D9. -/
def Obligations.StepChecksRegisterIndices : Prop :=
  ∀ (s : State) (o : Opcode) (op1 op2 : Byte), s.run = .running → Memory.wf s.mem = true →
    s.byteAt s.pc = some o.byte → s.byteAt (s.pc + 1) = some op1 →
    (o.format = .rr ∨ o.format = .ri → s.byteAt (s.pc + 2) = some op2) →
    (o.format ≠ .z → 8 ≤ op1.toNat → Raises (step s) (.outOfRange .registerIndex op1.toNat) (setIr o.byte s)) ∧
    (o.format = .rr → op1.toNat < 8 → 8 ≤ op2.toNat →
      Raises (step s) (.outOfRange .registerIndex op2.toNat) (setIr o.byte s)) ∧
    (o.format = .ri → op1.toNat < 8 → step s = exec (.ldi op1 op2) (setIr o.byte s))

/-- The model's choice (log 8): `exec` on a term that is not well formed, which no decoded instruction is, makes the check of
the decode stage again and raises OutOfRange with the first register operand above 7, whatever the instruction would do
with the register. The spec makes the check in the decode stage only; StepChecksRegisterIndices states that one. -/
def Obligations.ExecChecksRegisterIndices : Prop :=
  ∀ (i : Instr) (s : State), i.wellFormed = false →
    ∃ b, i.operands.find? (fun b => decide (8 ≤ b.toNat)) = some b ∧
      Raises (exec i s) (.outOfRange .registerIndex b.toNat) s

/-- A step exists only in RUNNING: there it always answers a next state (the completed instruction, or FAULTED); in HALTED
and in FAULTED no number of steps, one or more, answers a next state (R28, R80, R162). The FAULTED state is the spec's
decision D25; that the model shows a step that does not exist as a fault of the host's interface is its own choice, log 5. -/
def Obligations.StepsOnlyWhileRunning : Prop :=
  (∀ s : State, s.run = .running → ∃ t, step s = .next t) ∧
  (∀ (s : State) (n : Nat), s.run = .halted → Host.Core.run Sys2Proof.core (n + 1) s = .fault Fault.halted) ∧
  (∀ (s : State) (r : FaultRecord) (n : Nat), s.run = .faulted r →
    Host.Core.run Sys2Proof.core (n + 1) s = .fault Fault.faulted)

/-- Faults are precise: a step that ends in FAULTED records the address of its instruction, which pc still holds, and
leaves every register, every byte of memory, EQ and the output port as they were; IR holds the fetched opcode if the
opcode fetch succeeded, else what it held (R163, R29). Precision is the spec's decision D11. -/
def Obligations.FaultsArePrecise : Prop :=
  ∀ (s t : State) (r : FaultRecord), Memory.wf s.mem = true → step s = .next t → t.run = .faulted r →
    r.address = s.pc ∧ t.pc = s.pc ∧ (∀ q, t.reg q = s.reg q) ∧ (∀ a, t.byteAt a = s.byteAt a) ∧
    t.eqFlag = s.eqFlag ∧ t.output = s.output ∧ t.ir = (s.byteAt s.pc).getD s.ir

/-- No step raises FormatError ("the host's loader only, never the core"), UnsupportedOperation ("nothing in this block")
or an OutOfRange about a loader's write (R160, R85). UnsupportedOperation being unreachable is the spec's decision D20; the
name of a loader's write is the model's, log 9. -/
def Obligations.CoreNeverRaisesLoaderErrors : Prop :=
  ∀ (s t : State) (r : FaultRecord), step s = .next t → t.run = .faulted r →
    r.error ≠ .formatError ∧ r.error ≠ .unsupportedOperation ∧ ∀ v, r.error ≠ .outOfRange .load v

/-- Every step whose opcode fetch succeeds leaves the fetched byte in IR, and one whose opcode fetch raises leaves IR as it
was: no instruction writes IR (R29, R81). -/
def Obligations.FetchWritesIr : Prop :=
  ∀ (s t : State), step s = .next t →
    (∀ op, s.pc < 256 → s.byteAt s.pc = some op → t.ir = op) ∧
    (256 ≤ s.pc ∨ s.byteAt s.pc = none → t.ir = s.ir)

/-- op1 is the byte at pc + 1 and op2 the byte at pc + 2, used whole: a register operand's byte is the register index itself,
an immediate's byte is the value itself, zero-extended. Shown on the steps of the format with an immediate (LDI) and of the
format with two registers (ADD), for every operand value those formats admit (R62). -/
def Obligations.OperandBytesAreUsedWhole : Prop :=
  ∀ (s : State) (a : Reg), s.run = .running → s.pc + 2 < 256 → s.byteAt (s.pc + 1) = some (BitVec.ofNat 8 a.val) →
    (∀ v : Byte, s.byteAt s.pc = some 0x82 → s.byteAt (s.pc + 2) = some v →
      ∃ t w, step s = .next t ∧ t.reg a = some w ∧ w.toNat = v.toNat ∧ t.pc = s.pc + 3 ∧ t.run = .running) ∧
    (∀ (b : Reg) (x y : Byte), s.byteAt s.pc = some 0xA0 → s.byteAt (s.pc + 2) = some (BitVec.ofNat 8 b.val) →
      s.reg a = some x → s.reg b = some y →
      ∃ t w, step s = .next t ∧ t.reg a = some w ∧ w.toNat = (x.toNat + y.toNat) % 256 ∧ t.pc = s.pc + 3 ∧ t.run = .running)

/-! ### The fifteen instructions -/

/-- HLT halts and changes nothing else: pc, registers, memory and EQ are unchanged, and no further step exists (R100). That
pc keeps the address of the HLT is the spec's decision D17; that a step that does not exist shows as a fault of the host's
interface is the model's choice, log 5. -/
def Obligations.HltHalts : Prop :=
  encode .hlt = [0x01#8] ∧
  ∀ s : State, ∃ t, exec .hlt s = .next t ∧ t.run = .halted ∧ Frame [] [] s t ∧ t.pc = s.pc ∧ t.eqFlag = s.eqFlag ∧
    t.output = s.output ∧ step t = .fault .halted

/-- LDI writes its immediate byte to its register unchanged, R7 included, and advances pc by 3; nothing else changes. It
completes in every state (R101). The last clause, that `exec` raises OutOfRange with the index on a register operand above
7, is the model's choice (log 8): the spec raises that error in the step, before the instruction executes, and
StepChecksRegisterIndices states it there. -/
def Obligations.LdiLoadsImmediate : Prop :=
  (∀ (a v : Byte), encode (.ldi a v) = [0x82#8, a, v]) ∧
  (∀ (s : State) (a : Reg) (v : Byte), ∃ t, exec (.ldi (regByte a) v) s = .next t ∧ t.reg a = some v ∧
    Frame [a] [] s t ∧ t.pc = s.pc + 3 ∧ t.eqFlag = s.eqFlag ∧ t.run = s.run ∧ t.output = s.output) ∧
  (∀ (s : State) (a v : Byte), 8 ≤ a.toNat → Raises (exec (.ldi a v) s) (.outOfRange .registerIndex a.toNat) s)

/-- PRN emits the value of its register as one event on the output port and advances pc by 2; nothing else changes. On a
register that holds no value it raises UninitialisedRegister and emits nothing (R102, R169; the fault is the spec's
decision D2, the port that never blocks its decision D18). -/
def Obligations.PrnEmitsRegister : Prop :=
  (∀ a : Byte, encode (.prn a) = [0x47#8, a]) ∧
  ∀ (s : State) (a : Reg),
    (∀ v, s.reg a = some v → ∃ t, exec (.prn (regByte a)) s = .next t ∧ t.output = s.output ++ [v] ∧
      Frame [] [] s t ∧ t.pc = s.pc + 2 ∧ t.eqFlag = s.eqFlag ∧ t.run = s.run) ∧
    (s.reg a = none → Raises (exec (.prn (regByte a)) s) (.uninitialisedRegister a) s)

/-- MULT writes the product modulo 256 to its first register and advances pc by 3; nothing else changes. A register that
holds no value raises UninitialisedRegister, op1 first (R110; the fault is the spec's decision D2). -/
def Obligations.MultWrapsModulo256 : Prop :=
  (∀ a b : Byte, encode (.mult a b) = [0xA2#8, a, b]) ∧
  ∀ (s : State) (a b : Reg),
    (∀ x y, s.reg a = some x → s.reg b = some y → ∃ t, exec (.mult (regByte a) (regByte b)) s = .next t ∧
      (∃ p, t.reg a = some p ∧ p.toNat = (x.toNat * y.toNat) % 256) ∧
      Frame [a] [] s t ∧ t.pc = s.pc + 3 ∧ t.eqFlag = s.eqFlag ∧ t.run = s.run ∧ t.output = s.output) ∧
    (s.reg a = none → Raises (exec (.mult (regByte a) (regByte b)) s) (.uninitialisedRegister a) s) ∧
    ((s.reg a).isSome = true → s.reg b = none →
      Raises (exec (.mult (regByte a) (regByte b)) s) (.uninitialisedRegister b) s)

/-- ADD writes the sum modulo 256 to its first register and advances pc by 3; nothing else changes, and the carry is
recorded nowhere. A register that holds no value raises UninitialisedRegister, op1 first (R111; the fault is the spec's
decision D2). -/
def Obligations.AddWrapsModulo256 : Prop :=
  (∀ a b : Byte, encode (.add a b) = [0xA0#8, a, b]) ∧
  ∀ (s : State) (a b : Reg),
    (∀ x y, s.reg a = some x → s.reg b = some y → ∃ t, exec (.add (regByte a) (regByte b)) s = .next t ∧
      (∃ p, t.reg a = some p ∧ p.toNat = (x.toNat + y.toNat) % 256) ∧
      Frame [a] [] s t ∧ t.pc = s.pc + 3 ∧ t.eqFlag = s.eqFlag ∧ t.run = s.run ∧ t.output = s.output) ∧
    (s.reg a = none → Raises (exec (.add (regByte a) (regByte b)) s) (.uninitialisedRegister a) s) ∧
    ((s.reg a).isSome = true → s.reg b = none →
      Raises (exec (.add (regByte a) (regByte b)) s) (.uninitialisedRegister b) s)

/-- DIV writes the floor quotient back to its first register and advances pc by 3; nothing else changes. A register that
holds no value raises UninitialisedRegister, op1 first (the spec's decision D2); then a zero divisor raises
DivisionByZero with the divisor register (R112). -/
def Obligations.DivWritesFloorQuotient : Prop :=
  (∀ a b : Byte, encode (.div a b) = [0xA3#8, a, b]) ∧
  ∀ (s : State) (a b : Reg),
    (∀ x y, s.reg a = some x → s.reg b = some y → y ≠ 0 → ∃ t, exec (.div (regByte a) (regByte b)) s = .next t ∧
      (∃ q, t.reg a = some q ∧ q.toNat = x.toNat / y.toNat) ∧
      Frame [a] [] s t ∧ t.pc = s.pc + 3 ∧ t.eqFlag = s.eqFlag ∧ t.run = s.run ∧ t.output = s.output) ∧
    (s.reg a = none → Raises (exec (.div (regByte a) (regByte b)) s) (.uninitialisedRegister a) s) ∧
    ((s.reg a).isSome = true → s.reg b = none →
      Raises (exec (.div (regByte a) (regByte b)) s) (.uninitialisedRegister b) s) ∧
    ((s.reg a).isSome = true → s.reg b = some 0 →
      Raises (exec (.div (regByte a) (regByte b)) s) (.divisionByZero b) s)

/-- AND writes the bitwise AND back to its first register, bit by bit, and advances pc by 3; nothing else changes. A
register that holds no value raises UninitialisedRegister, op1 first (R113; the fault is the spec's decision D2). -/
def Obligations.AndWritesBitwiseAnd : Prop :=
  (∀ a b : Byte, encode (.and a b) = [0xA8#8, a, b]) ∧
  ∀ (s : State) (a b : Reg),
    (∀ x y, s.reg a = some x → s.reg b = some y → ∃ t, exec (.and (regByte a) (regByte b)) s = .next t ∧
      (∃ p, t.reg a = some p ∧ ∀ n, p.getLsbD n = (x.getLsbD n && y.getLsbD n)) ∧
      Frame [a] [] s t ∧ t.pc = s.pc + 3 ∧ t.eqFlag = s.eqFlag ∧ t.run = s.run ∧ t.output = s.output) ∧
    (s.reg a = none → Raises (exec (.and (regByte a) (regByte b)) s) (.uninitialisedRegister a) s) ∧
    ((s.reg a).isSome = true → s.reg b = none →
      Raises (exec (.and (regByte a) (regByte b)) s) (.uninitialisedRegister b) s)

/-- CMP writes EQ, true if the two values are equal and false if not, whatever it held, and advances pc by 3; no register
changes. A register that holds no value raises UninitialisedRegister, op1 first (R114; the fault is the spec's decision
D2). -/
def Obligations.CmpWritesEquality : Prop :=
  (∀ a b : Byte, encode (.cmp a b) = [0xA7#8, a, b]) ∧
  ∀ (s : State) (a b : Reg),
    (∀ x y, s.reg a = some x → s.reg b = some y → ∃ t, exec (.cmp (regByte a) (regByte b)) s = .next t ∧
      (t.eqFlag = true ↔ x.toNat = y.toNat) ∧
      Frame [] [] s t ∧ t.pc = s.pc + 3 ∧ t.run = s.run ∧ t.output = s.output) ∧
    (s.reg a = none → Raises (exec (.cmp (regByte a) (regByte b)) s) (.uninitialisedRegister a) s) ∧
    ((s.reg a).isSome = true → s.reg b = none →
      Raises (exec (.cmp (regByte a) (regByte b)) s) (.uninitialisedRegister b) s)

/-- JMP sets pc to its register's value, unchecked, and changes nothing else. A register that holds no value raises
UninitialisedRegister (R130, R133; the fault is the spec's decision D2). -/
def Obligations.JmpSetsPc : Prop :=
  (∀ a : Byte, encode (.jmp a) = [0x54#8, a]) ∧
  ∀ (s : State) (a : Reg),
    (∀ v, s.reg a = some v → ∃ t, exec (.jmp (regByte a)) s = .next t ∧ t.pc = v.toNat ∧
      Frame [] [] s t ∧ t.eqFlag = s.eqFlag ∧ t.run = s.run ∧ t.output = s.output) ∧
    (s.reg a = none → Raises (exec (.jmp (regByte a)) s) (.uninitialisedRegister a) s)

/-- JEQ sets pc to its register's value if EQ is true, else advances pc by 2 without reading the register; nothing else
changes, EQ included. Taken on a register that holds no value it raises UninitialisedRegister (R131; the fault is the
spec's decision D2, reading only when taken its decision D22). -/
def Obligations.JeqJumpsWhenEqual : Prop :=
  (∀ a : Byte, encode (.jeq a) = [0x55#8, a]) ∧
  ∀ (s : State) (a : Reg),
    (∀ v, s.eqFlag = true → s.reg a = some v → ∃ t, exec (.jeq (regByte a)) s = .next t ∧ t.pc = v.toNat ∧
      Frame [] [] s t ∧ t.eqFlag = s.eqFlag ∧ t.run = s.run ∧ t.output = s.output) ∧
    (s.eqFlag = false → ∃ t, exec (.jeq (regByte a)) s = .next t ∧ t.pc = s.pc + 2 ∧
      Frame [] [] s t ∧ t.eqFlag = s.eqFlag ∧ t.run = s.run ∧ t.output = s.output) ∧
    (s.eqFlag = true → s.reg a = none → Raises (exec (.jeq (regByte a)) s) (.uninitialisedRegister a) s)

/-- JNE sets pc to its register's value if EQ is false, else advances pc by 2 without reading the register; nothing else
changes, EQ included. Taken on a register that holds no value it raises UninitialisedRegister (R132; the fault is the
spec's decision D2, reading only when taken its decision D22). -/
def Obligations.JneJumpsWhenNotEqual : Prop :=
  (∀ a : Byte, encode (.jne a) = [0x56#8, a]) ∧
  ∀ (s : State) (a : Reg),
    (∀ v, s.eqFlag = false → s.reg a = some v → ∃ t, exec (.jne (regByte a)) s = .next t ∧ t.pc = v.toNat ∧
      Frame [] [] s t ∧ t.eqFlag = s.eqFlag ∧ t.run = s.run ∧ t.output = s.output) ∧
    (s.eqFlag = true → ∃ t, exec (.jne (regByte a)) s = .next t ∧ t.pc = s.pc + 2 ∧
      Frame [] [] s t ∧ t.eqFlag = s.eqFlag ∧ t.run = s.run ∧ t.output = s.output) ∧
    (s.eqFlag = false → s.reg a = none → Raises (exec (.jne (regByte a)) s) (.uninitialisedRegister a) s)

/-- PUSH stores its register's value (for R7 the decremented SP) in the cell the machine's stack address function gives,
which is SP - 1, leaves SP there and advances pc by 2; every other register and byte and EQ are unchanged. With SP = 0 it
raises OutOfRange with the stack address -1; then a register other than R7 that holds no value raises
UninitialisedRegister (R140, R141, R145 a; the faults are the spec's decisions D6 and D2, R7 as operand its decision
D10). -/
def Obligations.PushStoresBelowSp : Prop :=
  (∀ a : Byte, encode (.push a) = [0x45#8, a]) ∧
  ∀ (s : State) (a : Reg) (sp : Byte), s.reg 7 = some sp →
    (∀ slot v, pushSlot s = .ok slot → (if a = 7 then some (BitVec.ofNat 8 slot) else s.reg a) = some v →
      slot + 1 = sp.toNat ∧ ∃ t, exec (.push (regByte a)) s = .next t ∧ t.byteAt slot = some v ∧
        t.reg 7 = some (BitVec.ofNat 8 slot) ∧ Frame [7] [slot] s t ∧ t.pc = s.pc + 2 ∧ t.eqFlag = s.eqFlag ∧
        t.run = s.run ∧ t.output = s.output) ∧
    (sp ≠ 0 → ∃ slot, pushSlot s = .ok slot) ∧
    (sp = 0 → Raises (exec (.push (regByte a)) s) (.outOfRange .stackAddress (-1)) s) ∧
    (sp ≠ 0 → a ≠ 7 → s.reg a = none → Raises (exec (.push (regByte a)) s) (.uninitialisedRegister a) s)

/-- POP reads the cell SP addresses into its register, then increments SP, so that POP R7 leaves the popped byte plus one;
pc advances by 2, no byte of memory changes (the popped cell is not cleared) and EQ is unchanged. An unwritten cell raises
UninitialisedMemory; then an incremented SP of 256 raises OutOfRange (R140, R142, R145 b; the faults are the spec's
decisions D5 and D6, R7 as operand its decision D10). -/
def Obligations.PopLoadsFromSp : Prop :=
  (∀ a : Byte, encode (.pop a) = [0x46#8, a]) ∧
  ∀ (s : State) (a : Reg) (sp : Byte), s.reg 7 = some sp →
    (∀ v, s.byteAt sp.toNat = some v → (if a = 7 then v else sp).toNat < 255 →
      ∃ t, exec (.pop (regByte a)) s = .next t ∧ (a ≠ 7 → t.reg a = some v) ∧
        (∃ sp2, t.reg 7 = some sp2 ∧ sp2.toNat = (if a = 7 then v else sp).toNat + 1) ∧
        Frame [a, 7] [] s t ∧ t.pc = s.pc + 2 ∧ t.eqFlag = s.eqFlag ∧ t.run = s.run ∧ t.output = s.output) ∧
    (s.byteAt sp.toNat = none → Raises (exec (.pop (regByte a)) s) (.uninitialisedMemory sp.toNat) s) ∧
    (∀ v, s.byteAt sp.toNat = some v → (if a = 7 then v else sp) = 255 →
      Raises (exec (.pop (regByte a)) s) (.outOfRange .stackPointer 256) s)

/-- CALL stores the return address, pc + 2, in the cell the machine's stack address function gives, which is SP - 1,
leaves SP there and sets pc to its register's value (for R7 the decremented SP); every other register and byte and EQ are
unchanged. In this order it raises OutOfRange with the stack address -1 for SP = 0, OutOfRange with a return address above
255, UninitialisedRegister for a register other than R7 that holds no value (R140, R143, R145 a c; the faults are the
spec's decisions D6, D7 and D2, R7 as operand its decision D10, their order its decision D13). -/
def Obligations.CallPushesReturnAddress : Prop :=
  (∀ a : Byte, encode (.call a) = [0x50#8, a]) ∧
  ∀ (s : State) (a : Reg) (sp : Byte), s.reg 7 = some sp →
    (∀ slot v, pushSlot s = .ok slot → s.pc + 2 < 256 →
      (if a = 7 then some (BitVec.ofNat 8 slot) else s.reg a) = some v →
      slot + 1 = sp.toNat ∧ ∃ t, exec (.call (regByte a)) s = .next t ∧
        (∃ ret, t.byteAt slot = some ret ∧ ret.toNat = s.pc + 2) ∧ t.reg 7 = some (BitVec.ofNat 8 slot) ∧
        t.pc = v.toNat ∧ Frame [7] [slot] s t ∧ t.eqFlag = s.eqFlag ∧ t.run = s.run ∧ t.output = s.output) ∧
    (sp ≠ 0 → ∃ slot, pushSlot s = .ok slot) ∧
    (sp = 0 → Raises (exec (.call (regByte a)) s) (.outOfRange .stackAddress (-1)) s) ∧
    (sp ≠ 0 → 256 ≤ s.pc + 2 →
      Raises (exec (.call (regByte a)) s) (.outOfRange .returnAddress (s.pc + 2 : Nat)) s) ∧
    (sp ≠ 0 → s.pc + 2 < 256 → a ≠ 7 → s.reg a = none →
      Raises (exec (.call (regByte a)) s) (.uninitialisedRegister a) s)

/-- RET sets pc to the byte in the cell SP addresses and increments SP; every other register, every byte of memory and EQ
are unchanged. An unwritten cell raises UninitialisedMemory; then an incremented SP of 256 raises OutOfRange (R144, R145 b;
the faults are the spec's decisions D5 and D6). -/
def Obligations.RetPopsPc : Prop :=
  encode .ret = [0x11#8] ∧
  ∀ (s : State) (sp : Byte), s.reg 7 = some sp →
    (∀ target, s.byteAt sp.toNat = some target → sp ≠ 255 →
      ∃ t, exec .ret s = .next t ∧ t.pc = target.toNat ∧ (∃ sp2, t.reg 7 = some sp2 ∧ sp2.toNat = sp.toNat + 1) ∧
        Frame [7] [] s t ∧ t.eqFlag = s.eqFlag ∧ t.run = s.run ∧ t.output = s.output) ∧
    (s.byteAt sp.toNat = none → Raises (exec .ret s) (.uninitialisedMemory sp.toNat) s) ∧
    ((s.byteAt sp.toNat).isSome = true → sp = 255 → Raises (exec .ret s) (.outOfRange .stackPointer 256) s)

/-! ### Laws of the families -/

/-- ADD and MULT compute the exact unsigned result and keep it modulo 256; nothing records that the result exceeded 255:
every other register, memory, EQ, the run state, IR and the output port are as before, and pc advances by 3 whatever the
result was (R115). -/
def Obligations.AddAndMultKeepLowEightBits : Prop :=
  ∀ (s : State) (a b : Reg) (x y : Byte), s.reg a = some x → s.reg b = some y →
    (∃ t hi, exec (.add (regByte a) (regByte b)) s = .next t ∧
      (∃ p, t.reg a = some p ∧ x.toNat + y.toNat = 256 * hi + p.toNat) ∧
      Frame [a] [] s t ∧ t.pc = s.pc + 3 ∧ t.eqFlag = s.eqFlag ∧ t.run = s.run ∧ t.output = s.output) ∧
    (∃ t hi, exec (.mult (regByte a) (regByte b)) s = .next t ∧
      (∃ p, t.reg a = some p ∧ x.toNat * y.toNat = 256 * hi + p.toNat) ∧
      Frame [a] [] s t ∧ t.pc = s.pc + 3 ∧ t.eqFlag = s.eqFlag ∧ t.run = s.run ∧ t.output = s.output)

/-- DIV is unsigned floor division: for a divisor d in 1..255 the result is the unique q with q * d ≤ n < (q + 1) * d, never
larger than n; for d = 0 it raises DivisionByZero at every dividend, 0 included (R116). -/
def Obligations.DivIsFloorDivision : Prop :=
  ∀ (s : State) (a b : Reg) (n d : Byte), s.reg a = some n → s.reg b = some d →
    (1 ≤ d.toNat → ∃ t q, exec (.div (regByte a) (regByte b)) s = .next t ∧ t.reg a = some q ∧
      q.toNat * d.toNat ≤ n.toNat ∧ n.toNat < (q.toNat + 1) * d.toNat ∧ q.toNat ≤ n.toNat ∧
      (∀ q' : Nat, q' * d.toNat ≤ n.toNat → n.toNat < (q' + 1) * d.toNat → q' = q.toNat)) ∧
    (d.toNat = 0 → Raises (exec (.div (regByte a) (regByte b)) s) (.divisionByZero b) s)

/-- EQ: only CMP writes it, and on every execution, as a total function of its two operands; only JEQ and JNE read it (for
every other instruction but CMP the outcome is the same with EQ replaced, and CMP's outcome does not depend on it); no
other instruction and no fatal error changes it (R26). -/
def Obligations.EqualityFlagRule : Prop :=
  (∀ (i : Instr) (s t : State), (∀ a b, i ≠ .cmp a b) → exec i s = .next t → t.eqFlag = s.eqFlag) ∧
  (∀ (s : State) (a b : Reg) (x y : Byte) (flag : Bool), s.reg a = some x → s.reg b = some y →
    ∃ t, exec (.cmp (regByte a) (regByte b)) s = .next t ∧ t.eqFlag = decide (x = y) ∧
      exec (.cmp (regByte a) (regByte b)) (setEq flag s) = .next t) ∧
  (∀ (i : Instr) (s t : State) (flag : Bool), (∀ a b, i ≠ .cmp a b) → (∀ a, i ≠ .jeq a) → (∀ a, i ≠ .jne a) →
    exec i s = .next t → exec i (setEq flag s) = .next (setEq flag t)) ∧
  (∀ (s t : State) (r : FaultRecord), step s = .next t → t.run = .faulted r → t.eqFlag = s.eqFlag)

/-- The reset draw of EQ matters only to JEQ and JNE: a step that fetches another opcode gives, from two states that differ
in EQ only, states that differ in EQ at most; and after a CMP that completes they do not differ. R27 marks this as the
spec's own inference (`[derived: from rule R26]`); the draw is its decision D3. -/
def Obligations.EqDrawMattersOnlyToConditionalJumps : Prop :=
  ∀ (s t : State) (flag : Bool), s.byteAt s.pc ≠ some 0x55 → s.byteAt s.pc ≠ some 0x56 → step s = .next t →
    ∃ t', step (setEq flag s) = .next t' ∧ (t' = t ∨ t' = setEq flag t) ∧
      (s.byteAt s.pc = some 0xA7 → t.run = .running → t' = t)

/-- Neither IR nor the output the core has emitted is read by any instruction: with another IR or another output before it,
an instruction does the same, leaving IR alone and adding the same events (R29, decision D23; R169, decision D18). -/
def Obligations.IrAndOutputAreNeverRead : Prop :=
  ∀ (i : Instr) (s t : State) (irOther : Byte) (before : List Byte), exec i s = .next t →
    ∃ events, t.output = s.output ++ events ∧
      exec i { s with ir := irOther, output := before } = .next { t with ir := irOther, output := before ++ events }

/-- The next pc of every instruction (the table of R25): unchanged for HLT; pc + 3 for LDI, MULT, ADD, DIV, AND, CMP; pc + 2
for PRN, PUSH, POP; the register's value for JMP, a taken JEQ or JNE and CALL (for CALL R7 the decremented SP); pc + 2 for a
JEQ or JNE not taken; the popped byte for RET; and a faulting instruction leaves pc (R25; HLT's pc is the spec's decision
D17, CALL R7 its decision D10, the faulting pc its decision D11). -/
def Obligations.NextPcOfEveryInstruction : Prop :=
  ∀ (i : Instr) (s t : State), s.run = .running → exec i s = .next t →
    (∀ r, t.run = .faulted r → t.pc = s.pc) ∧
    ((∀ r, t.run ≠ .faulted r) →
      match i with
      | .hlt => t.pc = s.pc
      | .ldi _ _ | .mult _ _ | .add _ _ | .div _ _ | .and _ _ | .cmp _ _ => t.pc = s.pc + 3
      | .prn _ | .push _ | .pop _ => t.pc = s.pc + 2
      | .jmp a => ∃ (r : Reg) (v : Byte), a = regByte r ∧ s.reg r = some v ∧ t.pc = v.toNat
      | .jeq a => (s.eqFlag = true → ∃ (r : Reg) (v : Byte), a = regByte r ∧ s.reg r = some v ∧ t.pc = v.toNat) ∧
          (s.eqFlag = false → t.pc = s.pc + 2)
      | .jne a => (s.eqFlag = false → ∃ (r : Reg) (v : Byte), a = regByte r ∧ s.reg r = some v ∧ t.pc = v.toNat) ∧
          (s.eqFlag = true → t.pc = s.pc + 2)
      | .call a => ∃ (r : Reg) (v : Byte), a = regByte r ∧ s.reg r = some v ∧
          t.pc + (if r = 7 then 1 else 0) = v.toNat
      | .ret => ∃ sp v : Byte, s.reg 7 = some sp ∧ s.byteAt sp.toNat = some v ∧ t.pc = v.toNat)

/-- The registers an instruction can change: op1 of LDI, MULT, ADD, DIV, AND and POP, and R7 by PUSH, POP, CALL and RET; no
other register changes, whatever instruction runs and however it ends (the registers column of R33, which the spec marks
`[derived: ...]`). -/
def Obligations.OnlyDestinationRegistersChange : Prop :=
  ∀ (i : Instr) (s t : State) (q : Reg), exec i s = .next t → t.reg q ≠ s.reg q →
    match i with
    | .ldi a _ | .mult a _ | .add a _ | .div a _ | .and a _ => a = regByte q
    | .pop a => a = regByte q ∨ q = 7
    | .push _ | .call _ | .ret => q = 7
    | .hlt | .prn _ | .cmp _ _ | .jmp _ | .jeq _ | .jne _ => False

/-- Only PRN emits, and each completed PRN emits exactly one event, its register's value: a step changes the output port
only if it fetches 0x47 and completes (R33, R169; the write matrix R33 is the spec's own inference). -/
def Obligations.OnlyPrnEmits : Prop :=
  ∀ (s t : State), step s = .next t →
    (s.byteAt s.pc = some 0x47 ∧ t.run = .running →
      ∃ (r : Reg) (v : Byte), s.byteAt (s.pc + 1) = some (regByte r) ∧ s.reg r = some v ∧ t.output = s.output ++ [v]) ∧
    (¬ (s.byteAt s.pc = some 0x47 ∧ t.run = .running) → t.output = s.output)

/-- The only stores are those of PUSH and CALL, to the cell just below SP: a byte of memory differs after a step only if the
step fetched 0x45 or 0x50 and the byte is the one at SP - 1 (R31, R33: the spec's own inferences from the table). -/
def Obligations.OnlyPushAndCallStore : Prop :=
  ∀ (s t : State) (a : Nat), step s = .next t → t.byteAt a ≠ s.byteAt a →
    (s.byteAt s.pc = some 0x45 ∨ s.byteAt s.pc = some 0x50) ∧ ∃ sp, s.reg 7 = some sp ∧ sp.toNat = a + 1

/-- HALTED is reached only by HLT: a step that ends in HALTED fetched 0x01, and changed nothing but IR and the run state
(R28, R100, R187; that pc stays is the spec's decision D17). -/
def Obligations.OnlyHltReachesHalted : Prop :=
  ∀ (s t : State), step s = .next t → t.run = .halted →
    s.pc < 256 ∧ s.byteAt s.pc = some 0x01 ∧ t = { s with ir := 0x01, run := .halted }

/-- Stack pointer range. (1) No wrap: a PUSH or CALL with SP = 0x00, a POP or RET whose incremented SP would be 256 (for
POP R7 the popped byte plus one), and a CALL whose return address would be 256 all raise OutOfRange, so that SP keeps its
value. (2) No comparison with 0xF4: where those errors and the unwritten reads do not arise, PUSH, CALL, POP and RET
complete at every SP, 0xF4 and the values on both sides of it included, PUSH and CALL leaving SP one lower, POP and RET one
higher, POP R7 at the popped byte plus one (R145, R146; decisions D6, D7 and, for R7 as operand, D10). -/
def Obligations.StackPointerNeverWraps : Prop :=
  (∀ (s : State) (a : Reg), s.reg 7 = some 0 →
    Raises (exec (.push (regByte a)) s) (.outOfRange .stackAddress (-1)) s ∧
    Raises (exec (.call (regByte a)) s) (.outOfRange .stackAddress (-1)) s) ∧
  (∀ (s : State) (a : Reg) (v : Byte), s.reg 7 = some 255 → s.byteAt 255 = some v → a ≠ 7 →
    Raises (exec (.pop (regByte a)) s) (.outOfRange .stackPointer 256) s ∧
    Raises (exec .ret s) (.outOfRange .stackPointer 256) s) ∧
  (∀ (s : State) (sp : Byte), s.reg 7 = some sp → s.byteAt sp.toNat = some 255 →
    Raises (exec (.pop (regByte 7)) s) (.outOfRange .stackPointer 256) s) ∧
  (∀ (s : State) (a : Reg) (sp : Byte), s.reg 7 = some sp → sp ≠ 0 → s.pc = 254 →
    Raises (exec (.call (regByte a)) s) (.outOfRange .returnAddress 256) s) ∧
  (∀ (s : State) (a : Reg) (sp : Byte), s.reg 7 = some sp → sp ≠ 0 → (s.reg a).isSome = true →
    (∃ t sp2, exec (.push (regByte a)) s = .next t ∧ t.run = s.run ∧ t.reg 7 = some sp2 ∧ sp2.toNat + 1 = sp.toNat) ∧
    (s.pc + 2 < 256 →
      ∃ t sp2, exec (.call (regByte a)) s = .next t ∧ t.run = s.run ∧ t.reg 7 = some sp2 ∧ sp2.toNat + 1 = sp.toNat)) ∧
  (∀ (s : State) (a : Reg) (sp v : Byte), s.reg 7 = some sp → sp ≠ 255 → s.byteAt sp.toNat = some v →
    (a ≠ 7 → ∃ t sp2, exec (.pop (regByte a)) s = .next t ∧ t.run = s.run ∧ t.reg a = some v ∧ t.reg 7 = some sp2 ∧
      sp2.toNat = sp.toNat + 1) ∧
    (∃ t sp2, exec .ret s = .next t ∧ t.run = s.run ∧ t.pc = v.toNat ∧ t.reg 7 = some sp2 ∧ sp2.toNat = sp.toNat + 1)) ∧
  (∀ (s : State) (sp v : Byte), s.reg 7 = some sp → s.byteAt sp.toNat = some v → v ≠ 255 →
    ∃ t sp2, exec (.pop (regByte 7)) s = .next t ∧ t.run = s.run ∧ t.reg 7 = some sp2 ∧ sp2.toNat = v.toNat + 1)

/-- CALL then RET: from a CALL that completes, a RET that finds the stack as the CALL left it returns to the byte after the
CALL and restores SP, with every register as before the CALL (R143, R144; the cases are those in which the CALL raises
nothing, decisions D6, D7 and D2). -/
def Obligations.RetReturnsAfterCall : Prop :=
  ∀ (s t : State) (a : Reg), exec (.call (regByte a)) s = .next t → s.run = .running → t.run = .running →
    ∃ u, exec .ret t = .next u ∧ u.pc = s.pc + 2 ∧ (∀ q, u.reg q = s.reg q) ∧ u.run = .running

/-- PUSH then POP: the byte a register held is popped into another (neither being R7), SP is as before, and the popped cell
is not cleared (R140, R141, R142). -/
def Obligations.PopRestoresPushedByte : Prop :=
  ∀ (s t : State) (a b : Reg), a ≠ 7 → b ≠ 7 → exec (.push (regByte a)) s = .next t → s.run = .running →
    t.run = .running →
    ∃ u slot, exec (.pop (regByte b)) t = .next u ∧ pushSlot s = .ok slot ∧ u.reg b = s.reg a ∧ u.reg 7 = s.reg 7 ∧
      u.byteAt slot = s.reg a ∧ (∀ q, q ≠ b → u.reg q = s.reg q) ∧ u.pc = s.pc + 4

/-! ### Memory -/

/-- The memory address decoder accepts 0..255 and rejects any other computed address with OutOfRange, the access then not
happening; a write of an accepted address leaves the byte in its cell, where a read finds it, and changes no other cell and
nothing but memory (R40, R43). -/
def Obligations.MemoryReadsWhatWasWritten : Prop :=
  ∀ (access : Access) (a : Int) (v : Byte) (s : State),
    (a < 0 ∨ 255 < a → memWrite access a v s = .error (.outOfRange access a) ∧
      memRead access a s = .error (.outOfRange access a)) ∧
    (0 ≤ a → a ≤ 255 → ∃ t, memWrite access a v s = .ok t ∧ memRead access a t = .ok v ∧
      (∀ b : Nat, (b : Int) ≠ a → t.byteAt b = s.byteAt b) ∧ { t with mem := s.mem } = s)

/-- A byte a PUSH stores where the next fetch reads is the opcode the next step fetches: self-modifying code behaves as the
sequential reading says (R51, the spec's own inference and its decision D14; R48). -/
def Obligations.NextFetchSeesStore : Prop :=
  ∀ (s t : State) (a : Reg) (slot : Nat) (v : Byte), s.run = .running → s.byteAt s.pc = some 0x45 → s.pc + 1 < 256 →
    s.byteAt (s.pc + 1) = some (regByte a) → a ≠ 7 → s.reg a = some v → pushSlot s = .ok slot → slot = s.pc + 2 →
    step s = .next t → ∀ u, step t = .next u → u.ir = v

/-! ### Reset, the load port and the status port -/

/-- The state after reset, for every draw of EQ and of IR: R0 to R6 hold no value, R7 is 0xF4, pc is 0, the run state is
RUNNING, no memory cell holds a value, no output event is emitted; and `State.reset` is such a state (R180 to R181; no
value in R0 to R6 and in memory is the spec's decisions D2 and D5, the draws its decisions D3 and D23). -/
def Obligations.ResetState : Prop :=
  (∀ (eqDraw : Bool) (irDraw : Byte),
    (∀ r : Reg, r ≠ 7 → (State.resetWith eqDraw irDraw).reg r = none) ∧
    (State.resetWith eqDraw irDraw).reg 7 = some 0xF4 ∧ (State.resetWith eqDraw irDraw).pc = 0 ∧
    (State.resetWith eqDraw irDraw).eqFlag = eqDraw ∧ (State.resetWith eqDraw irDraw).ir = irDraw ∧
    (State.resetWith eqDraw irDraw).run = .running ∧ (∀ a, (State.resetWith eqDraw irDraw).byteAt a = none) ∧
    (State.resetWith eqDraw irDraw).output = []) ∧
  ∃ eqDraw irDraw, State.reset = State.resetWith eqDraw irDraw

/-- Register index 7 is the stack pointer: it is initialised to 0xF4, and an instruction that names R7 writes the stack
pointer the stack instructions then use (after `LDI R7,v` a PUSH stores at v - 1) and reads it (PRN R7 emits it) (R22). -/
def Obligations.SpIsRegisterSeven : Prop :=
  State.reset.reg 7 = some 0xF4 ∧
  (∀ (s t : State) (v : Byte), v ≠ 0 → exec (.ldi (regByte 7) v) s = .next t → pushSlot t = .ok (v.toNat - 1)) ∧
  (∀ (s t : State) (slot : Nat), pushSlot s = .ok slot → exec (.prn (regByte 7)) s = .next t →
    ∃ sp : Byte, t.output = s.output ++ [sp] ∧ sp.toNat = slot + 1)

/-- The load port: an image of at most 256 bytes comes to lie at addresses 0..n-1, the cells after it hold no value and
everything else is as reset leaves it; a longer image fails the load at the 257th write, which is OutOfRange (R180, R183;
decisions D5 and D19; the access that error names, a loader's write, is the model's, log 9). -/
def Obligations.LoadPlacesImageAtZero : Prop :=
  ∀ (image : List Byte) (eqDraw : Bool) (irDraw : Byte),
    (image.length ≤ 256 → ∃ s, State.loadWith eqDraw irDraw image = .ok s ∧ (∀ a : Nat, s.byteAt a = image[a]?) ∧
      { s with mem := [] } = State.resetWith eqDraw irDraw) ∧
    (256 < image.length → State.loadWith eqDraw irDraw image = .error (.outOfRange .load 256))

/-- The lines of a program file: a token of binary digits, alone, followed by a comment at once, or by a blank and a
comment, is its base-2 value, which fails the load with FormatError above 255; a comment-only line and an empty line are
skipped; a line whose significant part has another character fails the load with FormatError (R183; the bound is the spec's
decision D19; the form with a blank before the comment, and what the significant part of a line with blanks is, are the
model's choice, log 10). -/
def Obligations.LoaderLines : Prop :=
  (∀ (digits : List Bool) (comment suffix : List Char), digits ≠ [] →
    suffix ∈ [[], '#' :: comment, ' ' :: '#' :: comment] →
    let value := digits.foldl (fun n d => 2 * n + d.toNat) 0
    let line := digits.map (fun d => if d then '1' else '0') ++ suffix
    (value < 256 → parseLine line = .ok (some (BitVec.ofNat 8 value))) ∧
    (256 ≤ value → parseLine line = .error .formatError)) ∧
  (∀ comment : List Char, parseLine ('#' :: comment) = .ok none) ∧ parseLine [] = .ok none ∧
  (∀ line : List Char, (∃ c ∈ significant line, c ≠ '0' ∧ c ≠ '1') → parseLine line = .error .formatError)

/-- The status port: 0 and no record unless FAULTED; in FAULTED the code of the error's kind, 1 to 7 in the order of R161,
with the error and the faulting address; HALTED is success, FAULTED failure (R161, R168; the numbers are the spec's decision
D12). -/
def Obligations.StatusPortShowsRunState : Prop :=
  (∀ s : State, s.run = .running → faultCode s = 0 ∧ statusPort s = .running ∧ hostSuccess s = none) ∧
  (∀ s : State, s.run = .halted → faultCode s = 0 ∧ statusPort s = .halted ∧ hostSuccess s = some true) ∧
  (∀ (s : State) (e : FatalError), faultCode (raise e s) = e.code ∧
    statusPort (raise e s) = .faulted e.code e s.pc ∧ hostSuccess (raise e s) = some false) ∧
  FatalError.formatError.code = 1 ∧ (∀ k v, (FatalError.outOfRange k v).code = 2) ∧
  (∀ op, (FatalError.unknownInstruction op).code = 3) ∧ FatalError.unsupportedOperation.code = 4 ∧
  (∀ r, (FatalError.divisionByZero r).code = 5) ∧ (∀ r, (FatalError.uninitialisedRegister r).code = 6) ∧
  (∀ a, (FatalError.uninitialisedMemory a).code = 7)

/-! ### The invariant -/

/-- Every step keeps the invariant: memory stays canonical within 0..255, R7 holds a value, pc is at most 256, a fault
record's address is pc, and in HALTED IR is 0x01 and pc addresses a HLT (R7, R23, R24, R29, R100, R163; the reach of pc is
the spec's decision D4). -/
def Obligations.StepKeepsInvariant : Prop :=
  ∀ s t : State, s.Inv → step s = .next t → t.Inv

/-- The invariant holds after reset, for every draw (R180). -/
def Obligations.ResetHasInvariant : Prop :=
  ∀ (eqDraw : Bool) (irDraw : Byte), (State.resetWith eqDraw irDraw).Inv

/-- The invariant holds of every state a successful load of an image starts a run from, for every draw, and is kept along
the run by any number of steps (R180, R183, R24). -/
def Obligations.InvariantAlongEveryRun : Prop :=
  ∀ (image : List Byte) (eqDraw : Bool) (irDraw : Byte) (s t : State) (n : Nat),
    State.loadWith eqDraw irDraw image = .ok s → Host.Core.run Sys2Proof.core n s = .next t → t.Inv
end

