-- ==== Sys2Proof/Laws/Decode.lean ====
section
/-! SUPPORT. The small lemmas of the decoder and the encoder. -/

namespace Sys2Proof

/-- Looking up a table byte gives its row (R65). -/
@[simp] theorem ofByte_byte (o : Opcode) : Opcode.ofByte o.byte = some o := by cases o <;> decide

/-- A row found by lookup has the byte that was looked up: recognition is "by the full byte" (R65, R67). -/
theorem byte_of_ofByte {b : Byte} {o : Opcode} (h : Opcode.ofByte b = some o) : o.byte = b := by
  have := List.find?_some h
  simpa using this

/-- The kind of an assembled instruction. -/
@[simp] theorem opcode_assemble (o : Opcode) (a b : Byte) : (o.assemble a b).opcode = o := by cases o <;> rfl

/-- The operand bytes of an assembled instruction are as many as its length leaves (R60, R61). -/
theorem operands_assemble (o : Opcode) (a b : Byte) : (o.assemble a b).operands = [a, b].take (o.length - 1) := by
  cases o <;> rfl

/-- The length of every kind is 1, 2 or 3 (R61). -/
theorem length_range (o : Opcode) : 1 ≤ o.length ∧ o.length ≤ 3 := by cases o <;> decide

/-- A register's operand byte is its index (R62). -/
@[simp] theorem regByte_toNat (r : Reg) : (regByte r).toNat = r.val := by revert r; decide

/-- A register's operand byte passes the index check (R64). -/
@[simp] theorem regIndexOk_regByte (r : Reg) : regIndexOk (regByte r) = true := by revert r; decide

/-- Different registers have different operand bytes (R62). -/
@[simp] theorem regByte_inj {q r : Reg} : regByte q = regByte r ↔ q = r := by revert q r; decide

/-- The index check, as a bound (R64). -/
theorem regIndexOk_iff {b : Byte} : regIndexOk b = true ↔ b.toNat < 8 := by simp [regIndexOk]

/-- The index check of an assembled instruction is its well-formedness (R64). -/
theorem firstBadIndex_none_iff (o : Opcode) (a b : Byte) :
    firstBadIndex o.format a b = none ↔ (o.assemble a b).wellFormed = true := by
  cases o <;> simp only [Opcode.format, firstBadIndex, Opcode.assemble, Instr.wellFormed] <;>
    cases regIndexOk a <;> cases regIndexOk b <;> simp

end Sys2Proof
end

