-- ==== Sys2Proof/Laws/State.lean ====
section
/-! SUPPORT. One lemma per field per update of State, so that no proof unfolds a record update; and the register accessor
after each update. -/

namespace Sys2Proof.Machine

open Sys2Proof

@[simp] theorem writeReg_regs (r : Reg) (v : Nat) (s : State) : (writeReg r v s).regs = s.regs.set r (some (BitVec.ofNat 8 v)) := rfl
@[simp] theorem writeReg_pc (r : Reg) (v : Nat) (s : State) : (writeReg r v s).pc = s.pc := rfl
@[simp] theorem writeReg_eqFlag (r : Reg) (v : Nat) (s : State) : (writeReg r v s).eqFlag = s.eqFlag := rfl
@[simp] theorem writeReg_run (r : Reg) (v : Nat) (s : State) : (writeReg r v s).run = s.run := rfl
@[simp] theorem writeReg_ir (r : Reg) (v : Nat) (s : State) : (writeReg r v s).ir = s.ir := rfl
@[simp] theorem writeReg_mem (r : Reg) (v : Nat) (s : State) : (writeReg r v s).mem = s.mem := rfl
@[simp] theorem writeReg_output (r : Reg) (v : Nat) (s : State) : (writeReg r v s).output = s.output := rfl
@[simp] theorem writeReg_byteAt (r : Reg) (v : Nat) (s : State) (a : Nat) : (writeReg r v s).byteAt a = s.byteAt a := rfl

@[simp] theorem setPc_regs (n : Nat) (s : State) : (setPc n s).regs = s.regs := rfl
@[simp] theorem setPc_pc (n : Nat) (s : State) : (setPc n s).pc = n := rfl
@[simp] theorem setPc_eqFlag (n : Nat) (s : State) : (setPc n s).eqFlag = s.eqFlag := rfl
@[simp] theorem setPc_run (n : Nat) (s : State) : (setPc n s).run = s.run := rfl
@[simp] theorem setPc_ir (n : Nat) (s : State) : (setPc n s).ir = s.ir := rfl
@[simp] theorem setPc_mem (n : Nat) (s : State) : (setPc n s).mem = s.mem := rfl
@[simp] theorem setPc_output (n : Nat) (s : State) : (setPc n s).output = s.output := rfl
@[simp] theorem setPc_reg (n : Nat) (s : State) (q : Reg) : (setPc n s).reg q = s.reg q := rfl
@[simp] theorem setPc_byteAt (n : Nat) (s : State) (a : Nat) : (setPc n s).byteAt a = s.byteAt a := rfl

@[simp] theorem advancePc_regs (n : Nat) (s : State) : (advancePc n s).regs = s.regs := rfl
@[simp] theorem advancePc_pc (n : Nat) (s : State) : (advancePc n s).pc = s.pc + n := rfl
@[simp] theorem advancePc_eqFlag (n : Nat) (s : State) : (advancePc n s).eqFlag = s.eqFlag := rfl
@[simp] theorem advancePc_run (n : Nat) (s : State) : (advancePc n s).run = s.run := rfl
@[simp] theorem advancePc_ir (n : Nat) (s : State) : (advancePc n s).ir = s.ir := rfl
@[simp] theorem advancePc_mem (n : Nat) (s : State) : (advancePc n s).mem = s.mem := rfl
@[simp] theorem advancePc_output (n : Nat) (s : State) : (advancePc n s).output = s.output := rfl
@[simp] theorem advancePc_reg (n : Nat) (s : State) (q : Reg) : (advancePc n s).reg q = s.reg q := rfl
@[simp] theorem advancePc_byteAt (n : Nat) (s : State) (a : Nat) : (advancePc n s).byteAt a = s.byteAt a := rfl

@[simp] theorem setEq_regs (b : Bool) (s : State) : (setEq b s).regs = s.regs := rfl
@[simp] theorem setEq_pc (b : Bool) (s : State) : (setEq b s).pc = s.pc := rfl
@[simp] theorem setEq_eqFlag (b : Bool) (s : State) : (setEq b s).eqFlag = b := rfl
@[simp] theorem setEq_run (b : Bool) (s : State) : (setEq b s).run = s.run := rfl
@[simp] theorem setEq_ir (b : Bool) (s : State) : (setEq b s).ir = s.ir := rfl
@[simp] theorem setEq_mem (b : Bool) (s : State) : (setEq b s).mem = s.mem := rfl
@[simp] theorem setEq_output (b : Bool) (s : State) : (setEq b s).output = s.output := rfl
@[simp] theorem setEq_reg (b : Bool) (s : State) (q : Reg) : (setEq b s).reg q = s.reg q := rfl
@[simp] theorem setEq_byteAt (b : Bool) (s : State) (a : Nat) : (setEq b s).byteAt a = s.byteAt a := rfl

@[simp] theorem setIr_regs (b : Byte) (s : State) : (setIr b s).regs = s.regs := rfl
@[simp] theorem setIr_pc (b : Byte) (s : State) : (setIr b s).pc = s.pc := rfl
@[simp] theorem setIr_eqFlag (b : Byte) (s : State) : (setIr b s).eqFlag = s.eqFlag := rfl
@[simp] theorem setIr_run (b : Byte) (s : State) : (setIr b s).run = s.run := rfl
@[simp] theorem setIr_ir (b : Byte) (s : State) : (setIr b s).ir = b := rfl
@[simp] theorem setIr_mem (b : Byte) (s : State) : (setIr b s).mem = s.mem := rfl
@[simp] theorem setIr_output (b : Byte) (s : State) : (setIr b s).output = s.output := rfl
@[simp] theorem setIr_reg (b : Byte) (s : State) (q : Reg) : (setIr b s).reg q = s.reg q := rfl
@[simp] theorem setIr_byteAt (b : Byte) (s : State) (a : Nat) : (setIr b s).byteAt a = s.byteAt a := rfl

@[simp] theorem emit_regs (v : Byte) (s : State) : (emit v s).regs = s.regs := rfl
@[simp] theorem emit_pc (v : Byte) (s : State) : (emit v s).pc = s.pc := rfl
@[simp] theorem emit_eqFlag (v : Byte) (s : State) : (emit v s).eqFlag = s.eqFlag := rfl
@[simp] theorem emit_run (v : Byte) (s : State) : (emit v s).run = s.run := rfl
@[simp] theorem emit_ir (v : Byte) (s : State) : (emit v s).ir = s.ir := rfl
@[simp] theorem emit_mem (v : Byte) (s : State) : (emit v s).mem = s.mem := rfl
@[simp] theorem emit_output (v : Byte) (s : State) : (emit v s).output = s.output ++ [v] := rfl
@[simp] theorem emit_reg (v : Byte) (s : State) (q : Reg) : (emit v s).reg q = s.reg q := rfl
@[simp] theorem emit_byteAt (v : Byte) (s : State) (a : Nat) : (emit v s).byteAt a = s.byteAt a := rfl

@[simp] theorem halt_regs (s : State) : (halt s).regs = s.regs := rfl
@[simp] theorem halt_pc (s : State) : (halt s).pc = s.pc := rfl
@[simp] theorem halt_eqFlag (s : State) : (halt s).eqFlag = s.eqFlag := rfl
@[simp] theorem halt_run (s : State) : (halt s).run = .halted := rfl
@[simp] theorem halt_ir (s : State) : (halt s).ir = s.ir := rfl
@[simp] theorem halt_mem (s : State) : (halt s).mem = s.mem := rfl
@[simp] theorem halt_output (s : State) : (halt s).output = s.output := rfl
@[simp] theorem halt_reg (s : State) (q : Reg) : (halt s).reg q = s.reg q := rfl
@[simp] theorem halt_byteAt (s : State) (a : Nat) : (halt s).byteAt a = s.byteAt a := rfl

@[simp] theorem raise_regs (e : FatalError) (s : State) : (raise e s).regs = s.regs := rfl
@[simp] theorem raise_pc (e : FatalError) (s : State) : (raise e s).pc = s.pc := rfl
@[simp] theorem raise_eqFlag (e : FatalError) (s : State) : (raise e s).eqFlag = s.eqFlag := rfl
@[simp] theorem raise_run (e : FatalError) (s : State) : (raise e s).run = .faulted { error := e, address := s.pc } := rfl
@[simp] theorem raise_ir (e : FatalError) (s : State) : (raise e s).ir = s.ir := rfl
@[simp] theorem raise_mem (e : FatalError) (s : State) : (raise e s).mem = s.mem := rfl
@[simp] theorem raise_output (e : FatalError) (s : State) : (raise e s).output = s.output := rfl
@[simp] theorem raise_reg (e : FatalError) (s : State) (q : Reg) : (raise e s).reg q = s.reg q := rfl
@[simp] theorem raise_byteAt (e : FatalError) (s : State) (a : Nat) : (raise e s).byteAt a = s.byteAt a := rfl

@[simp] theorem storeByte_regs (n : Nat) (v : Byte) (s : State) : (storeByte n v s).regs = s.regs := rfl
@[simp] theorem storeByte_pc (n : Nat) (v : Byte) (s : State) : (storeByte n v s).pc = s.pc := rfl
@[simp] theorem storeByte_eqFlag (n : Nat) (v : Byte) (s : State) : (storeByte n v s).eqFlag = s.eqFlag := rfl
@[simp] theorem storeByte_run (n : Nat) (v : Byte) (s : State) : (storeByte n v s).run = s.run := rfl
@[simp] theorem storeByte_ir (n : Nat) (v : Byte) (s : State) : (storeByte n v s).ir = s.ir := rfl
@[simp] theorem storeByte_mem (n : Nat) (v : Byte) (s : State) : (storeByte n v s).mem = Memory.put s.mem n v := rfl
@[simp] theorem storeByte_output (n : Nat) (v : Byte) (s : State) : (storeByte n v s).output = s.output := rfl
@[simp] theorem storeByte_reg (n : Nat) (v : Byte) (s : State) (q : Reg) : (storeByte n v s).reg q = s.reg q := rfl

/-- A register after a write: the written one holds the value modulo 256, every other one is as before (R21). -/
@[simp] theorem writeReg_reg (r : Reg) (v : Nat) (s : State) (q : Reg) :
    (writeReg r v s).reg q = if r = q then some (BitVec.ofNat 8 v) else s.reg q := by
  simp [State.reg, writeReg, Vector.get_eq_getElem, Vector.getElem_set, Fin.ext_iff]

/-- Two states that agree on every field are equal. -/
theorem State.ext_fields {s t : State} (hregs : s.regs = t.regs) (hpc : s.pc = t.pc) (heq : s.eqFlag = t.eqFlag)
    (hrun : s.run = t.run) (hir : s.ir = t.ir) (hmem : s.mem = t.mem) (hout : s.output = t.output) : s = t := by
  cases s; cases t; simp_all

end Sys2Proof.Machine
end

