-- ==== Sys2Proof/Laws/Memory.lean ====
section
/-! SUPPORT. Memory: read after write, writes to one cell leave the others alone, and every memory operation keeps the
canonical form. -/

namespace Sys2Proof.Machine

open Sys2Proof

/-- Read after write at the same address. -/
@[simp] theorem cell_put_self (m : List Host.Cell) (a : Nat) (v : Byte) : Memory.cell (Memory.put m a v) a = some v := by
  induction m with
  | nil => simp [Memory.put, Memory.cell]
  | cons c m ih =>
    obtain ⟨k, w⟩ := c
    simp only [Memory.put]
    split
    · simp [Memory.cell]
    · split
      · simp [Memory.cell]
      · rename_i h1 h2
        simp only [Memory.cell, if_neg (Ne.symm h2), ih]

/-- A write leaves every other address alone. -/
theorem cell_put_other (m : List Host.Cell) {a b : Nat} (v : Byte) (h : b ≠ a) :
    Memory.cell (Memory.put m a v) b = Memory.cell m b := by
  induction m with
  | nil => simp [Memory.put, Memory.cell, Ne.symm h]
  | cons c m ih =>
    obtain ⟨k, w⟩ := c
    simp only [Memory.put]
    split
    · simp only [Memory.cell, if_neg (Ne.symm h)]
    · split
      · rename_i h1 h2
        subst h2
        simp only [Memory.cell, if_neg (Ne.symm h)]
      · simp only [Memory.cell, ih]

/-- The byte of a state after one cell is stored. -/
@[simp] theorem storeByte_byteAt (n : Nat) (v : Byte) (s : State) (a : Nat) :
    (storeByte n v s).byteAt a = if a = n then some v else s.byteAt a := by
  by_cases h : a = n
  · subst h; simp [State.byteAt, storeByte]
  · simp [State.byteAt, storeByte, cell_put_other _ _ h, h]

/-- The addresses a write lists: those listed before, and its own. -/
theorem mem_put {m : List Host.Cell} {a : Nat} {v : Byte} {c : Host.Cell} (h : c ∈ Memory.put m a v) :
    c ∈ m ∨ c.1 = a := by
  induction m with
  | nil => simp [Memory.put] at h; simp [h]
  | cons d m ih =>
    obtain ⟨k, w⟩ := d
    simp only [Memory.put] at h
    split at h
    · rcases List.mem_cons.1 h with rfl | h
      · exact .inr rfl
      · exact .inl h
    · split at h
      · rcases List.mem_cons.1 h with rfl | h
        · exact .inr rfl
        · exact .inl (List.mem_cons_of_mem _ h)
      · rcases List.mem_cons.1 h with rfl | h
        · exact .inl (List.mem_cons_self)
        · rcases ih h with h | h
          · exact .inl (List.mem_cons_of_mem _ h)
          · exact .inr h

/-- The canonical form, as a proposition. -/
theorem wf_iff (m : List Host.Cell) :
    Memory.wf m = true ↔ m.Pairwise (fun c d => c.1 < d.1) ∧ ∀ c ∈ m, c.1 < 256 := by
  simp only [Memory.wf, Config.memSize, Bool.and_eq_true, decide_eq_true_eq, List.all_eq_true]

/-- A write keeps addresses rising. -/
theorem pairwise_put {m : List Host.Cell} (a : Nat) (v : Byte) (h : m.Pairwise (fun c d => c.1 < d.1)) :
    (Memory.put m a v).Pairwise (fun c d => c.1 < d.1) := by
  induction m with
  | nil => simp [Memory.put]
  | cons c m ih =>
    obtain ⟨k, w⟩ := c
    have hk := List.pairwise_cons.1 h
    simp only [Memory.put]
    split
    · rename_i hak
      refine List.pairwise_cons.2 ⟨fun d hd => ?_, h⟩
      rcases List.mem_cons.1 hd with rfl | hd
      · exact hak
      · exact Nat.lt_trans hak (hk.1 d hd)
    · split
      · rename_i hak
        exact List.pairwise_cons.2 ⟨fun d hd => hak ▸ hk.1 d hd, hk.2⟩
      · rename_i h1 h2
        refine List.pairwise_cons.2 ⟨fun d hd => ?_, ih hk.2⟩
        rcases mem_put hd with hd | hd
        · exact hk.1 d hd
        · have : k < a := by omega
          simpa [hd] using this

/-- A write to an address 0..255 keeps the canonical form. -/
theorem put_wf {m : List Host.Cell} {a : Nat} (v : Byte) (h : Memory.wf m = true) (ha : a < 256) :
    Memory.wf (Memory.put m a v) = true := by
  rw [wf_iff] at h ⊢
  refine ⟨pairwise_put a v h.1, fun c hc => ?_⟩
  rcases mem_put hc with hc | hc
  · exact h.2 c hc
  · omega

/-- The empty memory of reset has the canonical form. -/
theorem nil_wf : Memory.wf [] = true := by decide

/-- In the canonical form only the addresses 0..255 hold bytes. -/
theorem cell_lt {m : List Host.Cell} (h : Memory.wf m = true) {a : Nat} {v : Byte} (hc : Memory.cell m a = some v) :
    a < 256 := by
  have hall := ((wf_iff m).1 h).2
  clear h
  induction m with
  | nil => simp [Memory.cell] at hc
  | cons c m ih =>
    obtain ⟨k, w⟩ := c
    simp only [Memory.cell] at hc
    split at hc
    · rename_i hk
      exact hk ▸ hall (k, w) List.mem_cons_self
    · exact ih hc (fun d hd => hall d (List.mem_cons_of_mem _ hd))

/-- A state's byte lies at an address 0..255, in the canonical form. -/
theorem State.byteAt_lt {s : State} (h : Memory.wf s.mem = true) {a : Nat} {v : Byte} (hc : s.byteAt a = some v) :
    a < 256 := cell_lt h hc

end Sys2Proof.Machine
end

