-- ==== Sys2Proof/Laws/Ops.lean ====
section
/-! SUPPORT. For each shared operation, what it answers and everything an answer says. -/

namespace Sys2Proof.Machine

open Sys2Proof

/-- The address decoder on a natural number (R40). -/
theorem addressDecode_natCast (access : Access) (n : Nat) :
    addressDecode access (n : Int) = if n < 256 then .ok n else .error (.outOfRange access n) := rfl

/-- The address decoder on an address 0..255 (R40). -/
@[simp] theorem addressDecode_of_lt (access : Access) {n : Nat} (h : n < 256) :
    addressDecode access (n : Int) = .ok n := by
  rw [addressDecode_natCast, if_pos h]

/-- The address decoder's answer: the address itself, which lies in 0..255 (R40). -/
theorem addressDecode_ok {access : Access} {a : Int} {n : Nat} (h : addressDecode access a = .ok n) :
    a = n ∧ n < 256 := by
  cases a with
  | ofNat m =>
    have h : addressDecode access (m : Int) = .ok n := h
    rw [addressDecode_natCast] at h
    split at h
    · cases h
      exact ⟨rfl, by assumption⟩
    · cases h
  | negSucc m => cases h

/-- The address decoder on any other address (R40). -/
theorem addressDecode_of_not {access : Access} {a : Int} (h : a < 0 ∨ 255 < a) :
    addressDecode access a = .error (.outOfRange access a) := by
  cases a with
  | ofNat m =>
    show addressDecode access (m : Int) = .error (.outOfRange access (m : Int))
    have hm : ¬ m < 256 := by
      have : (Int.ofNat m : Int) = (m : Int) := rfl
      omega
    rw [addressDecode_natCast, if_neg hm]
  | negSucc m => rfl

/-- A read of a cell 0..255 (R42). -/
theorem memRead_of_lt (access : Access) {n : Nat} (s : State) (h : n < 256) :
    memRead access (n : Int) s =
      match s.byteAt n with
      | none => .error (.uninitialisedMemory n)
      | some v => .ok v := by
  cases hb : s.byteAt n <;> simp only [memRead, addressDecode_of_lt access h, hb]

/-- A read that succeeds: the address lies in 0..255 and its cell holds the byte (R42). -/
theorem memRead_ok {access : Access} {a : Int} {s : State} {v : Byte} (h : memRead access a s = .ok v) :
    ∃ n : Nat, a = n ∧ n < 256 ∧ s.byteAt n = some v := by
  unfold memRead at h
  split at h
  · cases h
  · rename_i n hn
    obtain ⟨rfl, hlt⟩ := addressDecode_ok hn
    split at h
    · cases h
    · rename_i w hw
      cases h
      exact ⟨n, rfl, hlt, hw⟩

/-- A write to a cell 0..255 (R43). -/
theorem memWrite_of_lt (access : Access) {n : Nat} (v : Byte) (s : State) (h : n < 256) :
    memWrite access (n : Int) v s = .ok (storeByte n v s) := by
  simp only [memWrite, addressDecode_of_lt access h]

/-- A write that succeeds: the address lies in 0..255, and exactly that cell is stored (R43). -/
theorem memWrite_ok {access : Access} {a : Int} {v : Byte} {s t : State} (h : memWrite access a v s = .ok t) :
    ∃ n : Nat, a = n ∧ n < 256 ∧ t = storeByte n v s := by
  unfold memWrite at h
  split at h
  · cases h
  · rename_i n hn
    obtain ⟨rfl, hlt⟩ := addressDecode_ok hn
    cases h
    exact ⟨n, rfl, hlt, rfl⟩

/-- A register read that succeeds: the register holds the byte (R23). -/
theorem readReg_ok {r : Reg} {s : State} {v : Byte} : readReg r s = .ok v ↔ s.reg r = some v := by
  unfold readReg
  split <;> simp_all

/-- A register read of a register that holds a byte (R23). -/
theorem readReg_some {r : Reg} {s : State} {v : Byte} (h : s.reg r = some v) : readReg r s = .ok v := readReg_ok.2 h

/-- A register read of a register that holds no value (R23). -/
theorem readReg_none {r : Reg} {s : State} (h : s.reg r = none) : readReg r s = .error (.uninitialisedRegister r) := by
  simp [readReg, h]

/-- The operand byte of a register names that register (R62). -/
@[simp] theorem regOperand_regByte (r : Reg) : regOperand (regByte r) = .ok r := by
  revert r; decide

/-- A register operand that is accepted (R64). -/
theorem regOperand_ok {b : Byte} {r : Reg} (h : regOperand b = .ok r) : b = regByte r ∧ b.toNat < 8 := by
  unfold regOperand at h
  split at h
  · rename_i hb
    cases h
    refine ⟨?_, hb⟩
    simp [regByte]
  · cases h

/-- A register operand above 7 (R64). -/
theorem regOperand_of_ge {b : Byte} (h : 8 ≤ b.toNat) :
    regOperand b = .error (.outOfRange .registerIndex b.toNat) := by
  unfold regOperand
  rw [dif_neg (by omega)]

/-- The stack cell a PUSH or CALL stores to, with SP above 0 (R140). -/
theorem pushSlot_of_pos {s : State} {sp : Byte} (h : s.reg Config.spReg = some sp) (hpos : 0 < sp.toNat) :
    pushSlot s = .ok (sp.toNat - 1) := by
  have hlt := sp.isLt
  have hcast : (sp.toNat : Int) - 1 = ((sp.toNat - 1 : Nat) : Int) := by omega
  simp only [pushSlot, readReg_some h, hcast]
  exact addressDecode_of_lt _ (by omega)

/-- A PUSH or CALL with SP = 0 computes the address -1 (R145 a). -/
theorem pushSlot_of_zero {s : State} (h : s.reg Config.spReg = some 0) :
    pushSlot s = .error (.outOfRange .stackAddress (-1)) := by
  simp only [pushSlot, readReg_some h]
  rfl

/-- The stack cell a PUSH or CALL stores to: just below SP, in 0..254 (R140). -/
theorem pushSlot_ok {s : State} {n : Nat} (h : pushSlot s = .ok n) :
    ∃ sp, s.reg Config.spReg = some sp ∧ sp.toNat = n + 1 := by
  unfold pushSlot at h
  split at h
  · cases h
  · rename_i sp hsp
    obtain ⟨h1, h2⟩ := addressDecode_ok h
    exact ⟨sp, readReg_ok.1 hsp, by omega⟩

/-- An incremented SP that fits (R140). -/
theorem incrementedSp_ok {b : Byte} {n : Nat} (h : incrementedSp b = .ok n) : n = b.toNat + 1 ∧ n < 256 := by
  simp only [incrementedSp, Config.memSize] at h
  split at h
  · cases h; omega
  · cases h

/-- An incremented SP below 256 (R140). -/
theorem incrementedSp_of_lt {b : Byte} (h : b.toNat < 255) : incrementedSp b = .ok (b.toNat + 1) := by
  simp only [incrementedSp, Config.memSize]
  rw [if_pos (by omega)]

/-- An incremented SP of 256 (R145 b). -/
theorem incrementedSp_of_top {b : Byte} (h : b.toNat = 255) :
    incrementedSp b = .error (.outOfRange .stackPointer 256) := by
  simp [incrementedSp, Config.memSize, h]

/-- A return address that fits (R143). -/
theorem returnAddress_ok {s : State} {v : Byte} (h : returnAddress s = .ok v) :
    v = BitVec.ofNat 8 (s.pc + 2) ∧ s.pc + 2 < 256 := by
  simp only [returnAddress, Config.memSize] at h
  split at h
  · cases h; exact ⟨rfl, by omega⟩
  · cases h

/-- A return address below 256 (R143). -/
theorem returnAddress_of_lt {s : State} (h : s.pc + 2 < 256) : returnAddress s = .ok (BitVec.ofNat 8 (s.pc + 2)) := by
  simp [returnAddress, Config.memSize, h]

/-- A return address that no cell can hold (R145 c). -/
theorem returnAddress_of_ge {s : State} (h : 256 ≤ s.pc + 2) :
    returnAddress s = .error (.outOfRange .returnAddress (s.pc + 2 : Nat)) := by
  simp only [returnAddress, Config.memSize]
  rw [if_neg (by omega)]

/-- The register operand of a PUSH or CALL that is not R7 (R141). -/
theorem readAfterDecrement_of_ne {r : Reg} (slot : Nat) (s : State) (h : r ≠ Config.spReg) :
    readAfterDecrement r slot s = readReg r s := if_neg h

/-- The register operand R7 of a PUSH or CALL: the decremented SP (R140). -/
theorem readAfterDecrement_sp (slot : Nat) (s : State) :
    readAfterDecrement Config.spReg slot s = .ok (BitVec.ofNat 8 slot) := if_pos rfl

/-! ### What each operation raises -/

/-- The address decoder raises OutOfRange, with the access and the address, on an address outside 0..255 (R40). -/
theorem addressDecode_error {access : Access} {a : Int} {e : FatalError} (h : addressDecode access a = .error e) :
    e = .outOfRange access a ∧ (a < 0 ∨ 255 < a) := by
  by_cases ha : a < 0 ∨ 255 < a
  · rw [addressDecode_of_not ha] at h
    cases h
    exact ⟨rfl, ha⟩
  · obtain ⟨n, rfl⟩ : ∃ n : Nat, a = n := ⟨a.toNat, by omega⟩
    rw [addressDecode_of_lt _ (by omega)] at h
    cases h

/-- A memory read raises OutOfRange on an address outside 0..255, UninitialisedMemory on a cell that holds no value (R42). -/
theorem memRead_error {access : Access} {a : Int} {s : State} {e : FatalError} (h : memRead access a s = .error e) :
    (e = .outOfRange access a ∧ (a < 0 ∨ 255 < a)) ∨
      ∃ n : Nat, a = n ∧ n < 256 ∧ s.byteAt n = none ∧ e = .uninitialisedMemory n := by
  unfold memRead at h
  split at h
  · rename_i e' he
    cases h
    exact .inl (addressDecode_error he)
  · rename_i n hn
    obtain ⟨rfl, hlt⟩ := addressDecode_ok hn
    split at h
    · rename_i hnone
      cases h
      exact .inr ⟨n, rfl, hlt, hnone, rfl⟩
    · cases h

/-- A memory write raises OutOfRange on an address outside 0..255, and nothing else (R43). -/
theorem memWrite_error {access : Access} {a : Int} {v : Byte} {s : State} {e : FatalError}
    (h : memWrite access a v s = .error e) : e = .outOfRange access a ∧ (a < 0 ∨ 255 < a) := by
  unfold memWrite at h
  split at h
  · rename_i e' he
    cases h
    exact addressDecode_error he
  · cases h

/-- A register read raises UninitialisedRegister on a register that holds no value, and nothing else (R23). -/
theorem readReg_error {r : Reg} {s : State} {e : FatalError} (h : readReg r s = .error e) :
    s.reg r = none ∧ e = .uninitialisedRegister r := by
  unfold readReg at h
  split at h
  · cases h
    exact ⟨by assumption, rfl⟩
  · cases h

/-- A register operand raises OutOfRange with its index on a byte above 7, and nothing else (R64). -/
theorem regOperand_error {b : Byte} {e : FatalError} (h : regOperand b = .error e) :
    8 ≤ b.toNat ∧ e = .outOfRange .registerIndex b.toNat := by
  unfold regOperand at h
  split at h
  · cases h
  · cases h
    exact ⟨by omega, rfl⟩

/-- The stack address raises OutOfRange with -1 on SP = 0; UninitialisedRegister only where R7 holds no value, which no
run reaches (R23, R145 a). -/
theorem pushSlot_error {s : State} {e : FatalError} (h : pushSlot s = .error e) :
    (s.reg Config.spReg = some 0 ∧ e = .outOfRange .stackAddress (-1)) ∨
      (s.reg Config.spReg = none ∧ e = .uninitialisedRegister Config.spReg) := by
  cases hsp : s.reg Config.spReg with
  | none =>
    simp only [pushSlot, readReg_none hsp] at h
    cases h
    exact .inr ⟨rfl, rfl⟩
  | some sp =>
    by_cases h0 : 0 < sp.toNat
    · rw [pushSlot_of_pos hsp h0] at h
      cases h
    · obtain rfl : sp = 0 := by
        apply BitVec.eq_of_toNat_eq
        simp; omega
      rw [pushSlot_of_zero hsp] at h
      cases h
      exact .inl ⟨rfl, rfl⟩

/-- An incremented SP raises OutOfRange with 256, from 255 only (R145 b). -/
theorem incrementedSp_error {b : Byte} {e : FatalError} (h : incrementedSp b = .error e) :
    b.toNat = 255 ∧ e = .outOfRange .stackPointer 256 := by
  have hb := b.isLt
  by_cases h255 : b.toNat < 255
  · rw [incrementedSp_of_lt h255] at h
    cases h
  · rw [incrementedSp_of_top (by omega)] at h
    cases h
    exact ⟨by omega, rfl⟩

/-- A return address raises OutOfRange above 255 (R145 c). -/
theorem returnAddress_error {s : State} {e : FatalError} (h : returnAddress s = .error e) :
    256 ≤ s.pc + 2 ∧ e = .outOfRange .returnAddress (s.pc + 2 : Nat) := by
  by_cases hpc : s.pc + 2 < 256
  · rw [returnAddress_of_lt hpc] at h
    cases h
  · rw [returnAddress_of_ge (by omega)] at h
    cases h
    exact ⟨by omega, rfl⟩

/-- The register operand of a PUSH or CALL raises UninitialisedRegister, for a register other than R7 only (R141). -/
theorem readAfterDecrement_error {r : Reg} {slot : Nat} {s : State} {e : FatalError}
    (h : readAfterDecrement r slot s = .error e) :
    r ≠ Config.spReg ∧ s.reg r = none ∧ e = .uninitialisedRegister r := by
  unfold readAfterDecrement at h
  split at h
  · cases h
  · exact ⟨by assumption, readReg_error h⟩

/-! ### What each read depends on -/

/-- A memory read depends on memory only (R42). -/
theorem memRead_congr (access : Access) (a : Int) {s t : State} (h : t.mem = s.mem) :
    memRead access a t = memRead access a s := by
  simp only [memRead, State.byteAt, h]

/-- A register read depends on the register file only (R23). -/
theorem readReg_congr (r : Reg) {s t : State} (h : t.regs = s.regs) : readReg r t = readReg r s := by
  simp only [readReg, State.reg, h]

/-- The stack address depends on the register file only (R140). -/
theorem pushSlot_congr {s t : State} (h : t.regs = s.regs) : pushSlot t = pushSlot s := by
  simp only [pushSlot, readReg_congr _ h]

/-- The register operand of a PUSH or CALL depends on the register file only (R140). -/
theorem readAfterDecrement_congr (r : Reg) (slot : Nat) {s t : State} (h : t.regs = s.regs) :
    readAfterDecrement r slot t = readAfterDecrement r slot s := by
  simp only [readAfterDecrement, readReg_congr _ h]

/-- The return address depends on pc only (R143). -/
theorem returnAddress_congr {s t : State} (h : t.pc = s.pc) : returnAddress t = returnAddress s := by
  simp only [returnAddress, h]

/-! ### Committing and sequencing -/

/-- Committing an effect that raised nothing. -/
@[simp] theorem commit_ok (s t : State) : commit s (.ok t) = t := rfl

/-- Committing a fatal error (R163). -/
@[simp] theorem commit_error (s : State) (e : FatalError) : commit s (.error e) = raise e s := rfl

/-- Sequencing: an `Except` computation that succeeds has a first part that succeeds. -/
theorem bind_ok {α β : Type} {x : Except FatalError α} {f : α → Except FatalError β} {b : β}
    (h : (x >>= f) = .ok b) : ∃ a, x = .ok a ∧ f a = .ok b := by
  cases x with
  | error e => cases h
  | ok a => exact ⟨a, rfl, h⟩

/-- Sequencing: an `Except` computation that raises does so in its first part, or after it succeeded. -/
theorem bind_error {α β : Type} {x : Except FatalError α} {f : α → Except FatalError β} {e : FatalError}
    (h : (x >>= f) = .error e) : x = .error e ∨ ∃ a, x = .ok a ∧ f a = .error e := by
  cases x with
  | error e' => cases h; exact .inl rfl
  | ok a => exact .inr ⟨a, rfl, h⟩

/-- Sequencing after a first part that succeeds. -/
@[simp] theorem ok_bind {α β : Type} (a : α) (f : α → Except FatalError β) : (Except.ok a >>= f) = f a := rfl

/-- Sequencing after a first part that raises. -/
@[simp] theorem error_bind {α β : Type} (e : FatalError) (f : α → Except FatalError β) :
    ((Except.error e : Except FatalError α) >>= f) = .error e := rfl

end Sys2Proof.Machine
end

