-- ==== Sys2Proof/Laws/Exec.lean ====
section
/-! SUPPORT. Every meaning commits one effect (`exec_eq`), and for each effect everything its success says. -/

namespace Sys2Proof.Machine

open Sys2Proof

/-- The effect an instruction commits. -/
def effectOf (i : Instr) (s : State) : Except FatalError State :=
  match i with
  | .hlt => .ok (halt s)
  | .ldi a v => ldiEffect a v s
  | .prn a => prnEffect a s
  | .mult a b => aluEffect multValue a b s
  | .add a b => aluEffect addValue a b s
  | .div a b => aluEffect divValue a b s
  | .and a b => aluEffect andValue a b s
  | .cmp a b => cmpEffect a b s
  | .jmp a => jumpEffect true a s
  | .jeq a => jumpEffect s.eqFlag a s
  | .jne a => jumpEffect (!s.eqFlag) a s
  | .push a => pushEffect a s
  | .pop a => popEffect a s
  | .call a => callEffect a s
  | .ret => retEffect s

/-- Executing an instruction commits its effect: it answers a next state, which is the effect's where it raised nothing
and the state before with the fatal error taken otherwise (R163). -/
theorem exec_eq (i : Instr) (s : State) : exec i s = .next (commit s (effectOf i s)) := by cases i <;> rfl

/-- What a committed effect can be. -/
theorem commit_cases (s : State) (x : Except FatalError State) :
    (∃ t, x = .ok t ∧ commit s x = t) ∨ (∃ e, x = .error e ∧ commit s x = raise e s) := by
  cases x with
  | ok t => exact .inl ⟨t, rfl, rfl⟩
  | error e => exact .inr ⟨e, rfl, rfl⟩

/-- What executing an instruction can answer. -/
theorem exec_cases {i : Instr} {s t : State} (h : exec i s = .next t) :
    effectOf i s = .ok t ∨ ∃ e, effectOf i s = .error e ∧ t = raise e s := by
  rw [exec_eq] at h
  cases h
  rcases commit_cases s (effectOf i s) with ⟨u, hu, hc⟩ | ⟨e, he, hc⟩
  · exact .inl (hc.symm ▸ hu)
  · exact .inr ⟨e, he, hc⟩

/-- LDI succeeds. -/
theorem ldiEffect_ok {a v : Byte} {s t : State} (h : ldiEffect a v s = .ok t) :
    ∃ r, a = regByte r ∧ t = advancePc 3 (writeReg r v.toNat s) := by
  obtain ⟨r, hr, h⟩ := bind_ok h
  cases h
  exact ⟨r, (regOperand_ok hr).1, rfl⟩

/-- PRN succeeds. -/
theorem prnEffect_ok {a : Byte} {s t : State} (h : prnEffect a s = .ok t) :
    ∃ r v, a = regByte r ∧ s.reg r = some v ∧ t = advancePc 2 (emit v s) := by
  obtain ⟨r, hr, h⟩ := bind_ok h
  obtain ⟨v, hv, h⟩ := bind_ok h
  cases h
  exact ⟨r, v, (regOperand_ok hr).1, readReg_ok.1 hv, rfl⟩

/-- The operands of an ALU instruction are read. -/
theorem aluOperands_ok {a b : Byte} {s : State} {p : Reg × Reg × Byte × Byte} (h : aluOperands a b s = .ok p) :
    ∃ ra rb x y, a = regByte ra ∧ b = regByte rb ∧ s.reg ra = some x ∧ s.reg rb = some y ∧ p = (ra, rb, x, y) := by
  obtain ⟨ra, ha, h⟩ := bind_ok h
  obtain ⟨rb, hb, h⟩ := bind_ok h
  obtain ⟨x, hx, h⟩ := bind_ok h
  obtain ⟨y, hy, h⟩ := bind_ok h
  cases h
  exact ⟨ra, rb, x, y, (regOperand_ok ha).1, (regOperand_ok hb).1, readReg_ok.1 hx, readReg_ok.1 hy, rfl⟩

/-- The operands of an ALU instruction, where both registers hold a value. -/
theorem aluOperands_some {a b : Reg} {x y : Byte} {s : State} (hx : s.reg a = some x) (hy : s.reg b = some y) :
    aluOperands (regByte a) (regByte b) s = .ok (a, b, x, y) := by
  simp [aluOperands, readReg_some hx, readReg_some hy, pure, Except.pure]

/-- An ALU instruction's first register holds no value. -/
theorem aluOperands_fst_none {a : Reg} (b : Reg) {s : State} (hx : s.reg a = none) :
    aluOperands (regByte a) (regByte b) s = .error (.uninitialisedRegister a) := by
  simp [aluOperands, readReg_none hx]

/-- An ALU instruction's second register holds no value. -/
theorem aluOperands_snd_none {a b : Reg} {x : Byte} {s : State} (hx : s.reg a = some x) (hy : s.reg b = none) :
    aluOperands (regByte a) (regByte b) s = .error (.uninitialisedRegister b) := by
  simp [aluOperands, readReg_some hx, readReg_none hy]

/-- MULT, ADD, DIV or AND succeeds. -/
theorem aluEffect_ok {f : Reg → Byte → Byte → Except FatalError Nat} {a b : Byte} {s t : State}
    (h : aluEffect f a b s = .ok t) :
    ∃ ra rb x y v, a = regByte ra ∧ b = regByte rb ∧ s.reg ra = some x ∧ s.reg rb = some y ∧ f rb x y = .ok v ∧
      t = advancePc 3 (writeReg ra v s) := by
  obtain ⟨p, hp, h⟩ := bind_ok h
  obtain ⟨ra, rb, x, y, ha, hb, hx, hy, rfl⟩ := aluOperands_ok hp
  obtain ⟨v, hv, h⟩ := bind_ok h
  cases h
  exact ⟨ra, rb, x, y, v, ha, hb, hx, hy, hv, rfl⟩

/-- MULT, ADD, DIV or AND with both operands read. -/
theorem aluEffect_some (f : Reg → Byte → Byte → Except FatalError Nat) {a b : Reg} {x y : Byte} {s : State}
    (hx : s.reg a = some x) (hy : s.reg b = some y) :
    aluEffect f (regByte a) (regByte b) s =
      match f b x y with
      | .error e => .error e
      | .ok v => .ok (advancePc 3 (writeReg a v s)) := by
  simp only [aluEffect, aluOperands_some hx hy, ok_bind]
  cases f b x y <;> rfl

/-- CMP succeeds. -/
theorem cmpEffect_ok {a b : Byte} {s t : State} (h : cmpEffect a b s = .ok t) :
    ∃ ra rb x y, a = regByte ra ∧ b = regByte rb ∧ s.reg ra = some x ∧ s.reg rb = some y ∧
      t = advancePc 3 (setEq (equalityFlag x y) s) := by
  obtain ⟨p, hp, h⟩ := bind_ok h
  obtain ⟨ra, rb, x, y, ha, hb, hx, hy, rfl⟩ := aluOperands_ok hp
  cases h
  exact ⟨ra, rb, x, y, ha, hb, hx, hy, rfl⟩

/-- A jump succeeds: taken, or not taken. -/
theorem jumpEffect_ok {taken : Bool} {a : Byte} {s t : State} (h : jumpEffect taken a s = .ok t) :
    ∃ r, a = regByte r ∧ ((taken = true ∧ ∃ v, s.reg r = some v ∧ t = setPc v.toNat s) ∨
      (taken = false ∧ t = advancePc 2 s)) := by
  obtain ⟨r, hr, h⟩ := bind_ok h
  refine ⟨r, (regOperand_ok hr).1, ?_⟩
  cases taken with
  | true =>
    obtain ⟨v, hv, h⟩ := bind_ok h
    cases h
    exact .inl ⟨rfl, v, readReg_ok.1 hv, rfl⟩
  | false =>
    cases h
    exact .inr ⟨rfl, rfl⟩

/-- PUSH succeeds. -/
theorem pushEffect_ok {a : Byte} {s t : State} (h : pushEffect a s = .ok t) :
    ∃ r slot v, a = regByte r ∧ pushSlot s = .ok slot ∧ slot < 255 ∧ readAfterDecrement r slot s = .ok v ∧
      t = advancePc 2 (writeReg Config.spReg slot (storeByte slot v s)) := by
  obtain ⟨r, hr, h⟩ := bind_ok h
  obtain ⟨slot, hslot, h⟩ := bind_ok h
  obtain ⟨v, hv, h⟩ := bind_ok h
  obtain ⟨u, hu, h⟩ := bind_ok h
  cases h
  obtain ⟨n, hn, hlt, rfl⟩ := memWrite_ok hu
  obtain ⟨sp, hsp, hslot'⟩ := pushSlot_ok hslot
  have hspl := sp.isLt
  have : n = slot := by omega
  subst this
  exact ⟨r, n, v, (regOperand_ok hr).1, hslot, by omega, hv, rfl⟩

/-- POP succeeds. -/
theorem popEffect_ok {a : Byte} {s t : State} (h : popEffect a s = .ok t) :
    ∃ r sp v sp2, a = regByte r ∧ s.reg Config.spReg = some sp ∧ s.byteAt sp.toNat = some v ∧
      incrementedSp (if r = Config.spReg then v else sp) = .ok sp2 ∧
      t = advancePc 2 (writeReg Config.spReg sp2 (writeReg r v.toNat s)) := by
  obtain ⟨r, hr, h⟩ := bind_ok h
  obtain ⟨sp, hsp, h⟩ := bind_ok h
  obtain ⟨v, hv, h⟩ := bind_ok h
  obtain ⟨sp2, hsp2, h⟩ := bind_ok h
  cases h
  obtain ⟨n, hn, _, hb⟩ := memRead_ok hv
  have : n = sp.toNat := by omega
  subst this
  exact ⟨r, sp, v, sp2, (regOperand_ok hr).1, readReg_ok.1 hsp, hb, hsp2, rfl⟩

/-- CALL succeeds. -/
theorem callEffect_ok {a : Byte} {s t : State} (h : callEffect a s = .ok t) :
    ∃ r slot ret target, a = regByte r ∧ pushSlot s = .ok slot ∧ slot < 255 ∧ returnAddress s = .ok ret ∧
      readAfterDecrement r slot s = .ok target ∧
      t = setPc target.toNat (writeReg Config.spReg slot (storeByte slot ret s)) := by
  obtain ⟨r, hr, h⟩ := bind_ok h
  obtain ⟨slot, hslot, h⟩ := bind_ok h
  obtain ⟨ret, hret, h⟩ := bind_ok h
  obtain ⟨target, htarget, h⟩ := bind_ok h
  obtain ⟨u, hu, h⟩ := bind_ok h
  cases h
  obtain ⟨n, hn, hlt, rfl⟩ := memWrite_ok hu
  obtain ⟨sp, hsp, hslot'⟩ := pushSlot_ok hslot
  have hspl := sp.isLt
  have : n = slot := by omega
  subst this
  exact ⟨r, n, ret, target, (regOperand_ok hr).1, hslot, by omega, hret, htarget, rfl⟩

/-- RET succeeds. -/
theorem retEffect_ok {s t : State} (h : retEffect s = .ok t) :
    ∃ sp target sp2, s.reg Config.spReg = some sp ∧ s.byteAt sp.toNat = some target ∧ incrementedSp sp = .ok sp2 ∧
      t = setPc target.toNat (writeReg Config.spReg sp2 s) := by
  obtain ⟨sp, hsp, h⟩ := bind_ok h
  obtain ⟨target, htarget, h⟩ := bind_ok h
  obtain ⟨sp2, hsp2, h⟩ := bind_ok h
  cases h
  obtain ⟨n, hn, _, hb⟩ := memRead_ok htarget
  have : n = sp.toNat := by omega
  subst this
  exact ⟨sp, target, sp2, readReg_ok.1 hsp, hb, hsp2, rfl⟩

end Sys2Proof.Machine
end

