-- ==== Sys2Proof/Laws/PerInstr.lean ====
section
/-! SUPPORT. Statements about every instruction as syntax, one lemma per constructor. -/

namespace Sys2Proof.Laws.Encoding

open Sys2Proof

/-- The encoding of an instruction is as long as its opcode alone says (R61), begins with its opcode byte (R45, R60), and
that byte's bits 7:6 are the number of operand bytes (the pattern of R67). -/
def Statement (i : Instr) : Prop :=
  (encode i).length = i.opcode.length ∧ (encode i).head? = some i.opcode.byte ∧
    i.operands.length = i.opcode.byte.toNat / 64

/-- The number of operand bytes of every kind is in bits 7:6 of its opcode byte (R67). -/
theorem operand_count (o : Opcode) : o.length - 1 = o.byte.toNat / 64 := by cases o <;> decide

/-- The statement holds of an instruction whose operands are as many as its kind says. -/
theorem statement_of (i : Instr) (h : (encode i).length = i.opcode.length) (ho : i.operands.length = i.opcode.length - 1) :
    Statement i := ⟨h, rfl, ho.trans (operand_count i.opcode)⟩

theorem hlt : Statement .hlt := statement_of _ rfl rfl
theorem ldi (a v : Byte) : Statement (.ldi a v) := statement_of _ rfl rfl
theorem prn (a : Byte) : Statement (.prn a) := statement_of _ rfl rfl
theorem mult (a b : Byte) : Statement (.mult a b) := statement_of _ rfl rfl
theorem add (a b : Byte) : Statement (.add a b) := statement_of _ rfl rfl
theorem div (a b : Byte) : Statement (.div a b) := statement_of _ rfl rfl
theorem and (a b : Byte) : Statement (.and a b) := statement_of _ rfl rfl
theorem cmp (a b : Byte) : Statement (.cmp a b) := statement_of _ rfl rfl
theorem jmp (a : Byte) : Statement (.jmp a) := statement_of _ rfl rfl
theorem jeq (a : Byte) : Statement (.jeq a) := statement_of _ rfl rfl
theorem jne (a : Byte) : Statement (.jne a) := statement_of _ rfl rfl
theorem push (a : Byte) : Statement (.push a) := statement_of _ rfl rfl
theorem pop (a : Byte) : Statement (.pop a) := statement_of _ rfl rfl
theorem call (a : Byte) : Statement (.call a) := statement_of _ rfl rfl
theorem ret : Statement .ret := statement_of _ rfl rfl

end Sys2Proof.Laws.Encoding
end

