-- ==== Sys2Proof/Laws/Step.lean ====
section
/-! SUPPORT. What a fetch answers, and what one step can do. -/

namespace Sys2Proof.Machine

open Sys2Proof

/-- An opcode is fetched: it is the byte at pc, which lies in 0..255 (R81). -/
theorem fetchOpcode_ok {s : State} {op : Byte} (h : fetchOpcode s = .ok op) : s.pc < 256 ∧ s.byteAt s.pc = some op := by
  obtain ⟨n, hn, hlt, hb⟩ := memRead_ok h
  have : n = s.pc := by omega
  exact this ▸ ⟨hlt, hb⟩

/-- The fetch of a cell that holds a byte (R81). -/
theorem fetchOpcode_some {s : State} {op : Byte} (hpc : s.pc < 256) (h : s.byteAt s.pc = some op) :
    fetchOpcode s = .ok op := by
  simp only [fetchOpcode, memRead_of_lt _ s hpc, h]

/-- An operand byte is fetched: where the instruction has it, it is the byte at pc + k, which lies in 0..255 (R82). -/
theorem fetchOperand_ok {n k : Nat} {s : State} {b : Byte} (h : fetchOperand n k s = .ok b) (hk : k < n) :
    s.pc + k < 256 ∧ s.byteAt (s.pc + k) = some b := by
  unfold fetchOperand at h
  rw [if_pos hk] at h
  obtain ⟨m, hm, hlt, hb⟩ := memRead_ok h
  have : m = s.pc + k := by omega
  exact this ▸ ⟨hlt, hb⟩

/-- The fetch of an operand byte whose cell holds one (R82). -/
theorem fetchOperand_some {n k : Nat} {s : State} {b : Byte} (hk : k < n) (hlt : s.pc + k < 256)
    (h : s.byteAt (s.pc + k) = some b) : fetchOperand n k s = .ok b := by
  unfold fetchOperand
  rw [if_pos hk, memRead_of_lt _ s hlt, h]

/-- An operand byte the instruction does not have is not read (R82). -/
theorem fetchOperand_absent {n k : Nat} (s : State) (hk : ¬ k < n) : fetchOperand n k s = .ok 0 := by
  unfold fetchOperand
  rw [if_neg hk]

/-- The opcode fetch depends on memory and pc only (R81). -/
theorem fetchOpcode_congr {s t : State} (hm : t.mem = s.mem) (hp : t.pc = s.pc) : fetchOpcode t = fetchOpcode s := by
  simp only [fetchOpcode, memRead_congr _ _ hm, hp]

/-- An operand byte's fetch depends on memory and pc only (R82). -/
theorem fetchOperand_congr (n k : Nat) {s t : State} (hm : t.mem = s.mem) (hp : t.pc = s.pc) :
    fetchOperand n k t = fetchOperand n k s := by
  simp only [fetchOperand, memRead_congr _ _ hm, hp]

/-- The decode stage depends on the opcode, memory and pc only (R82). -/
theorem fetchInstr_congr (op : Byte) {s t : State} (hm : t.mem = s.mem) (hp : t.pc = s.pc) :
    fetchInstr op t = fetchInstr op s := by
  simp only [fetchInstr, fetchOperand_congr _ _ hm hp]

/-- An instruction is fetched: its opcode is the one looked up, it is well formed, and its bytes lie in 0..255
(R64, R65, R82). -/
theorem fetchInstr_ok {op : Byte} {s : State} {i : Instr} (h : fetchInstr op s = .ok i) (hpc : s.pc < 256) :
    ∃ a b, Opcode.ofByte op = some i.opcode ∧ i = i.opcode.assemble a b ∧ i.wellFormed = true ∧
      s.pc + i.opcode.length ≤ 256 := by
  unfold fetchInstr at h
  split at h
  · cases h
  · rename_i o ho
    obtain ⟨a, ha, h⟩ := bind_ok h
    obtain ⟨b, hb, h⟩ := bind_ok h
    split at h
    · cases h
    · rename_i hbad
      cases h
      refine ⟨a, b, by simpa using ho, by simp, (firstBadIndex_none_iff o a b).1 hbad, ?_⟩
      rw [opcode_assemble]
      have hl := length_range o
      by_cases h2 : 2 < o.length
      · have := (fetchOperand_ok hb h2).1
        omega
      · by_cases h1 : 1 < o.length
        · have := (fetchOperand_ok ha h1).1
          omega
        · omega

/-- What one step can do (R84): it runs only in RUNNING; the opcode fetch raises; or the opcode goes into IR and then
decode raises, or the decoded instruction's effect is committed. -/
theorem step_cases {s t : State} (h : step s = .next t) :
    s.run = .running ∧
      ((∃ e, fetchOpcode s = .error e ∧ t = raise e s) ∨
       (∃ op, s.pc < 256 ∧ s.byteAt s.pc = some op ∧
         ((∃ e, fetchInstr op (setIr op s) = .error e ∧ t = raise e (setIr op s)) ∨
          (∃ i, fetchInstr op (setIr op s) = .ok i ∧ exec i (setIr op s) = .next t)))) := by
  unfold step at h
  split at h
  · cases h
  · cases h
  · rename_i hrun
    refine ⟨hrun, ?_⟩
    split at h
    · rename_i e he
      cases h
      exact .inl ⟨e, he, rfl⟩
    · rename_i op hop
      obtain ⟨hpc, hb⟩ := fetchOpcode_ok hop
      refine .inr ⟨op, hpc, hb, ?_⟩
      split at h
      · rename_i e he
        cases h
        exact .inl ⟨e, he, rfl⟩
      · rename_i i hi
        exact .inr ⟨i, hi, h⟩

end Sys2Proof.Machine
end

