-- ==== Sys2Proof/Machine/Assembler.lean ====
section
/-! DEFINITION. The assembler syntax of R68 (decision D24), as a printer: no hardware behaviour depends on it. -/

namespace Sys2Proof

/-- A register operand as written: `R` and its index (R68). -/
def asmReg (b : Byte) : String := "R" ++ toString b.toNat

/-- A mnemonic with one register operand. -/
def asmR (mnemonic : String) (a : Byte) : String := mnemonic ++ " " ++ asmReg a

/-- A mnemonic with two register operands, op1 first. -/
def asmRR (mnemonic : String) (a b : Byte) : String := asmR mnemonic a ++ "," ++ asmReg b

/-- The instruction as the spec writes it: "a mnemonic followed by comma-separated operands, op1 first", the immediate
in decimal (R68). -/
def Instr.asm : Instr → String
  | .hlt => "HLT"
  | .ldi a v => asmR "LDI" a ++ "," ++ toString v.toNat
  | .prn a => asmR "PRN" a
  | .mult a b => asmRR "MULT" a b
  | .add a b => asmRR "ADD" a b
  | .div a b => asmRR "DIV" a b
  | .and a b => asmRR "AND" a b
  | .cmp a b => asmRR "CMP" a b
  | .jmp a => asmR "JMP" a
  | .jeq a => asmR "JEQ" a
  | .jne a => asmR "JNE" a
  | .push a => asmR "PUSH" a
  | .pop a => asmR "POP" a
  | .call a => asmR "CALL" a
  | .ret => "RET"

end Sys2Proof
end

