-- ==== Sys2Proof/Tests/Slice0.lean ====
section
/-! SUPPORT. Tests. Every expected result is a worked example of spec/95_test_vectors.md, a corner case a rule names, or a
word written out from the encoding of R65; none is a result of this model. Then the witnesses: for every statement with
hypotheses, concrete values that meet them. -/

namespace Sys2Proof.Tests

open Sys2Proof Sys2Proof.Machine

/-! ### Well-formedness: an ill-formed term for each check (R64) -/

theorem test_ldi_reg_refused : (Instr.ldi 8 1).wellFormed = false := by decide
theorem test_ldi_imm_not_checked : (Instr.ldi 3 255).wellFormed = true := by decide
theorem test_prn_reg_refused : (Instr.prn 8).wellFormed = false := by decide
theorem test_mult_reg_refused : (Instr.mult 8 0).wellFormed = false ∧ (Instr.mult 0 8).wellFormed = false := by decide
theorem test_add_reg_refused : (Instr.add 255 0).wellFormed = false ∧ (Instr.add 0 255).wellFormed = false := by decide
theorem test_div_reg_refused : (Instr.div 8 0).wellFormed = false ∧ (Instr.div 0 8).wellFormed = false := by decide
theorem test_and_reg_refused : (Instr.and 8 0).wellFormed = false ∧ (Instr.and 0 8).wellFormed = false := by decide
theorem test_cmp_reg_refused : (Instr.cmp 8 0).wellFormed = false ∧ (Instr.cmp 0 8).wellFormed = false := by decide
theorem test_jmp_reg_refused : (Instr.jmp 8).wellFormed = false := by decide
theorem test_jeq_reg_refused : (Instr.jeq 9).wellFormed = false := by decide
theorem test_jne_reg_refused : (Instr.jne 9).wellFormed = false := by decide
theorem test_push_reg_refused : (Instr.push 8).wellFormed = false := by decide
theorem test_pop_reg_refused : (Instr.pop 8).wellFormed = false := by decide
theorem test_call_reg_refused : (Instr.call 8).wellFormed = false := by decide

/-! ### Decoding: words written out bit by bit from R65 -/

/-- The instruction decoded from bytes, if any. -/
def decoded (bs : List Byte) : Option Instr :=
  match decode bs with
  | .ok (i, _) => some i
  | .error _ => none

/-- Why bytes decode to no instruction, if they do not. -/
def rejection (bs : List Byte) : Option DecodeError :=
  match decode bs with
  | .ok _ => none
  | .error e => some e

theorem test_decode_hlt : decoded [0b00000001] = some .hlt := by decide
theorem test_decode_ldi : decoded [0b10000010, 0b00000000, 0b00101010] = some (.ldi 0 42) := by decide
theorem test_decode_prn : decoded [0b01000111, 0b00000011] = some (.prn 3) := by decide
theorem test_decode_mult : decoded [0b10100010, 0b00000010, 0b00000001] = some (.mult 2 1) := by decide
theorem test_decode_add : decoded [0b10100000, 0b00000010, 0b00000001] = some (.add 2 1) := by decide
theorem test_decode_div : decoded [0b10100011, 0b00000010, 0b00000001] = some (.div 2 1) := by decide
theorem test_decode_and : decoded [0b10101000, 0b00000010, 0b00000001] = some (.and 2 1) := by decide
theorem test_decode_cmp : decoded [0b10100111, 0b00000010, 0b00000001] = some (.cmp 2 1) := by decide
theorem test_decode_jmp : decoded [0b01010100, 0b00000111] = some (.jmp 7) := by decide
theorem test_decode_jeq : decoded [0b01010101, 0b00000111] = some (.jeq 7) := by decide
theorem test_decode_jne : decoded [0b01010110, 0b00000111] = some (.jne 7) := by decide
theorem test_decode_push : decoded [0b01000101, 0b00000110] = some (.push 6) := by decide
theorem test_decode_pop : decoded [0b01000110, 0b00000110] = some (.pop 6) := by decide
theorem test_decode_call : decoded [0b01010000, 0b00000101] = some (.call 5) := by decide
theorem test_decode_ret : decoded [0b00010001] = some .ret := by decide
/-- Rejections by name: L1.8 (0x00 and 0xA1), L2.1 (index 8; op1 before op2), a missing operand byte. -/
theorem test_decode_rejects :
    rejection [0x00] = some (.unknownOpcode 0x00) ∧ rejection [0xA1, 0, 1] = some (.unknownOpcode 0xA1) ∧
    rejection [0x82, 8, 1] = some (.registerIndex 8) ∧ rejection [0xA0, 9, 10] = some (.registerIndex 9) ∧
    rejection [0xA0, 0, 0xFF] = some (.registerIndex 0xFF) ∧ rejection [0x82, 0] = some (.missingOperand 2) ∧
    rejection [0x47] = some (.missingOperand 1) ∧ rejection [] = some .noOpcode := by decide

/-- R68's own examples of the assembler syntax. -/
theorem test_asm : (Instr.ldi 0 42).asm = "LDI R0,42" ∧ (Instr.push 0).asm = "PUSH R0" ∧ (Instr.add 0 1).asm = "ADD R0,R1" ∧
    Instr.hlt.asm = "HLT" := by decide

/-! ### One step: the vectors of 95_test_vectors.md -/

/-- A RUNNING state with some registers written over reset's, given pc, EQ and memory cells. -/
def st (regs : List (Reg × Byte)) (pc : Nat) (eq : Bool) (mem : List Host.Cell) : State :=
  { State.resetWith eq 0 with
    regs := regs.foldl (fun v p => v.set p.1 (some p.2)) (State.resetWith eq 0).regs, pc := pc, mem := mem }

/-- What a view of the next state shows, if there is one. -/
def seen {α : Type} (o : Host.Outcome State Fault Refusal) (view : State → α) : Option α :=
  match o with
  | .next t => some (view t)
  | .fault _ => none
  | .refused _ => none

/-- The fault record of a state. -/
def faultOf (s : State) : Option FaultRecord :=
  match s.run with
  | .faulted r => some r
  | _ => none

-- L1.1, L2.1 (HLT at 255)
theorem test_hlt : seen (step (st [] 255 false [(255, 0x01)])) (fun t => (t.run, t.pc, t.ir)) = some (.halted, 255, 0x01) := by
  decide
-- L2.2
theorem test_ldi_sp : seen (step (st [] 0 false [(0, 0x82), (1, 7), (2, 0x10)])) (fun t => (t.reg 7, t.pc)) = some (some 0x10, 3) := by
  decide
-- L2.1: an LDI at 253 leaves pc = 256, and the next fetch faults
theorem test_ldi_at_253 : seen (step (st [] 253 false [(253, 0x82), (254, 0), (255, 1)])) (fun t => (t.pc, seen (step t) faultOf)) =
    some (256, some (some { error := .outOfRange .fetch 256, address := 256 })) := by decide
theorem test_prn : seen (step (st [(0, 42)] 3 false [(3, 0x47), (4, 0)])) (fun t => (t.output, t.pc)) = some ([42], 5) := by decide
theorem test_prn_unwritten : seen (step (st [] 0 false [(0, 0x47), (1, 3)])) (fun t => (faultOf t, t.output)) =
    some (some { error := .uninitialisedRegister 3, address := 0 }, []) := by decide
-- L2.3
theorem test_mult_wraps : seen (exec (.mult 0 1) (st [(0, 200), (1, 10)] 0 false [])) (fun t => (t.reg 0, t.pc)) =
    some (some 208, 3) := by decide
theorem test_mult_top : seen (exec (.mult 0 1) (st [(0, 255), (1, 255)] 0 false [])) (fun t => t.reg 0) = some (some 1) := by decide
theorem test_add_wraps : seen (exec (.add 0 1) (st [(0, 250), (1, 10)] 0 true [])) (fun t => (t.reg 0, t.reg 1, t.eqFlag)) =
    some (some 4, some 10, true) := by decide
theorem test_add_sp : seen (exec (.add 7 1) (st [(1, 12)] 0 false [])) (fun t => t.reg 7) = some (some 0) := by decide
theorem test_div : seen (exec (.div 0 1) (st [(0, 7), (1, 2)] 0 false [])) (fun t => (t.reg 0, t.pc)) = some (some 3, 3) := by decide
theorem test_div_by_zero : seen (exec (.div 0 1) (st [(0, 5), (1, 0)] 6 false [])) (fun t => (faultOf t, t.reg 0, t.pc)) =
    some (some { error := .divisionByZero 1, address := 6 }, some 5, 6) := by decide
theorem test_and : seen (exec (.and 0 1) (st [(0, 0xF0), (1, 0x3C)] 0 false [])) (fun t => (t.reg 0, t.pc)) = some (some 0x30, 3) := by
  decide
theorem test_cmp_clears : seen (exec (.cmp 0 1) (st [(0, 3), (1, 4)] 0 true [])) (fun t => (t.eqFlag, t.reg 0)) =
    some (false, some 3) := by decide
theorem test_cmp_unwritten : seen (exec (.cmp 0 1) (st [(0, 1)] 0 true [])) (fun t => (faultOf t, t.eqFlag)) =
    some (some { error := .uninitialisedRegister 1, address := 0 }, true) := by decide
-- L2.4
theorem test_jmp : seen (exec (.jmp 3) (st [(3, 12)] 20 false [])) (fun t => t.pc) = some 12 := by decide
theorem test_jeq_taken : seen (exec (.jeq 3) (st [(3, 12)] 20 true [])) (fun t => t.pc) = some 12 := by decide
theorem test_jeq_not_taken_unwritten : seen (exec (.jeq 3) (st [] 20 false [])) (fun t => (t.pc, t.run)) = some (22, .running) := by
  decide
theorem test_jne_taken : seen (exec (.jne 3) (st [(3, 12)] 20 false [])) (fun t => t.pc) = some 12 := by decide
theorem test_jne_not_taken : seen (exec (.jne 3) (st [(3, 12)] 20 true [])) (fun t => t.pc) = some 22 := by decide
theorem test_jeq_index_checked : seen (step (st [] 0 false [(0, 0x55), (1, 9)])) faultOf =
    some (some { error := .outOfRange .registerIndex 9, address := 0 }) := by decide
-- L2.5
theorem test_push : seen (exec (.push 0) (st [(0, 9)] 0 false [])) (fun t => (t.mem, t.reg 7, t.pc)) =
    some ([(0xF3, 9)], some 0xF3, 2) := by decide
theorem test_push_sp : seen (exec (.push 7) (st [] 0 false [])) (fun t => (t.mem, t.reg 7)) = some ([(0xF3, 0xF3)], some 0xF3) := by
  decide
theorem test_push_at_zero : seen (exec (.push 0) (st [(0, 1), (7, 0)] 0 false [])) (fun t => (faultOf t, t.reg 7)) =
    some (some { error := .outOfRange .stackAddress (-1), address := 0 }, some 0) := by decide
theorem test_pop_sp : seen (exec (.pop 7) (st [(7, 0xF3)] 0 false [(0xF3, 0x10)])) (fun t => (t.reg 7, t.mem)) =
    some (some 0x11, [(0xF3, 0x10)]) := by decide
theorem test_pop_at_top : seen (exec (.pop 0) (st [(7, 255)] 0 false [(255, 3)])) (fun t => (faultOf t, t.reg 0)) =
    some (some { error := .outOfRange .stackPointer 256, address := 0 }, none) := by decide
theorem test_call : seen (exec (.call 1) (st [(1, 6)] 3 false [])) (fun t => (t.mem, t.reg 7, t.pc)) =
    some ([(0xF3, 5)], some 0xF3, 6) := by decide
theorem test_call_sp : seen (exec (.call 7) (st [] 0 false [])) (fun t => (t.mem, t.pc)) = some ([(0xF3, 2)], 0xF3) := by decide
theorem test_ret : seen (exec .ret (st [(7, 0xF3)] 0x0B false [(0xF3, 5)])) (fun t => (t.pc, t.reg 7)) = some (5, some 0xF4) := by
  decide
theorem test_ret_empty : seen (exec .ret (st [] 0x0B false [])) faultOf =
    some (some { error := .uninitialisedMemory 0xF4, address := 0x0B }) := by decide
-- L2.1
theorem test_operand_past_end : seen (step (st [] 254 false [(254, 0x82), (255, 0)])) (fun t => (faultOf t, t.reg 0, t.ir)) =
    some (some { error := .outOfRange .operand 256, address := 254 }, none, 0x82) := by decide
-- L1.8
theorem test_unknown_opcode : seen (step (st [] 0 false [(0, 0x00)])) (fun t => (faultOf t, statusPort t)) =
    some (some { error := .unknownInstruction 0x00, address := 0 }, .faulted 3 (.unknownInstruction 0x00) 0) := by decide
-- L1.2: the program file as the loader reads it, then its first step
theorem test_load_file : (match State.loadFile ["10000010".toList, "00000000 # R0".toList, "# comment".toList, "00101010".toList] with
    | .ok s => seen (step s) (fun t => (t.reg 0, t.pc))
    | .error _ => none) = some (some 42, 3) := by decide
-- R183: a line that is no binary number, and one above 255
theorem test_load_rejects : parseLine "LDI".toList = .error .formatError ∧ parseLine "100000000".toList = .error .formatError := ⟨rfl, rfl⟩
-- the host's word placed where the first step fetches: LDI R0,42 from reset (L1.2)
theorem test_fetch_word : seen (step (State.reset.withFetchWord 24 0x2A0082)) (fun t => (t.reg 0, t.pc, t.ir)) =
    some (some 42, 3, 0x82) := by decide

/-! ### Witnesses: values that meet the hypotheses of each statement -/

/-- A step answers a next state that a check accepts. -/
def stepsTo (s : State) (check : State → Bool) : Bool := (seen (step s) check).getD false

/-- Executing answers a next state that a check accepts. -/
def runsTo (i : Instr) (s : State) (check : State → Bool) : Bool := (seen (exec i s) check).getD false

/-- A check of the next state gives the next state. -/
theorem stepsTo_next {s : State} {check : State → Bool} (h : stepsTo s check = true) :
    ∃ t, step s = .next t ∧ check t = true := by
  unfold stepsTo seen at h
  split at h
  · exact ⟨_, by assumption, h⟩
  · cases h
  · cases h

/-- A check of the executed state gives the next state. -/
theorem runsTo_next {i : Instr} {s : State} {check : State → Bool} (h : runsTo i s check = true) :
    ∃ t, exec i s = .next t ∧ check t = true := by
  unfold runsTo seen at h
  split at h
  · exact ⟨_, by assumption, h⟩
  · cases h
  · cases h

theorem witness_DecodeOfEncode : (Instr.add 7 0).wellFormed = true ∧ (Instr.ldi 7 255).wellFormed = true := by decide
theorem witness_DecodeAcceptsOnlyEncodings : decode [0xA0, 7, 0, 9] = .ok (.add 7 0, [9]) := rfl
theorem witness_OtherOpcodesAreIllegal :
    ∃ (op : Byte) (s : State), op ∉ ([0x01, 0x82, 0x47, 0xA2, 0xA0, 0xA3, 0xA8, 0xA7, 0x54, 0x55, 0x56, 0x45, 0x46, 0x50, 0x11] : List Byte) ∧
      s.run = .running ∧ s.pc < 256 ∧ s.byteAt s.pc = some op := ⟨0xA1, st [] 255 false [(255, 0xA1)], by decide⟩
theorem witness_OtherOpcodesAreIllegal_operands : (Opcode.add.assemble 7 0).wellFormed = true := by decide
theorem witness_LengthImpliedByOpcode : decode [0x11, 9] = .ok (.ret, [9]) ∧ decode [0x50, 7] = .ok (.call 7, []) ∧
    decode [0x82, 7, 255] = .ok (.ldi 7 255, []) := ⟨rfl, rfl, rfl⟩
theorem witness_StepRunsDecodedInstruction :
    let s := st [] 253 false [(253, 0x82), (254, 7), (255, 255)]
    s.run = .running ∧ Memory.wf s.mem = true ∧ decode s.window = .ok (.ldi 7 255, []) := ⟨rfl, rfl, rfl⟩
theorem witness_FetchErrorsInOrder_pc : ∃ s : State, s.run = .running ∧ Memory.wf s.mem = true ∧ 256 ≤ s.pc := ⟨st [] 256 false [], by decide⟩
theorem witness_FetchErrorsInOrder_cell :
    ∃ s : State, s.run = .running ∧ Memory.wf s.mem = true ∧ s.pc < 256 ∧ s.byteAt s.pc = none := ⟨st [] 255 false [], by decide⟩
theorem witness_FetchErrorsInOrder_opcode :
    ∃ (s : State) (op : Byte), s.run = .running ∧ Memory.wf s.mem = true ∧ s.byteAt s.pc = some op ∧ Opcode.ofByte op = none :=
  ⟨st [] 255 false [(255, 0x00)], 0x00, by decide⟩
theorem witness_FetchErrorsInOrder_op1_past :
    ∃ (s : State) (o : Opcode), s.run = .running ∧ Memory.wf s.mem = true ∧ s.byteAt s.pc = some o.byte ∧ 2 ≤ o.length ∧ s.pc = 255 :=
  ⟨st [] 255 false [(255, 0x47)], .prn, by decide⟩
theorem witness_FetchErrorsInOrder_op1_unwritten :
    ∃ (s : State) (o : Opcode), s.run = .running ∧ Memory.wf s.mem = true ∧ s.byteAt s.pc = some o.byte ∧ 2 ≤ o.length ∧ s.pc < 255 ∧
      s.byteAt (s.pc + 1) = none := ⟨st [] 254 false [(254, 0x47)], .prn, by decide⟩
theorem witness_FetchErrorsInOrder_op2_past :
    ∃ (s : State) (o : Opcode), s.run = .running ∧ Memory.wf s.mem = true ∧ s.byteAt s.pc = some o.byte ∧ o.length = 3 ∧
      (s.byteAt (s.pc + 1)).isSome = true ∧ s.pc = 254 := ⟨st [] 254 false [(254, 0x82), (255, 0)], .ldi, by decide⟩
theorem witness_FetchErrorsInOrder_op2_unwritten :
    ∃ (s : State) (o : Opcode), s.run = .running ∧ Memory.wf s.mem = true ∧ s.byteAt s.pc = some o.byte ∧ o.length = 3 ∧
      (s.byteAt (s.pc + 1)).isSome = true ∧ s.pc < 254 ∧ s.byteAt (s.pc + 2) = none :=
  ⟨st [] 253 false [(253, 0x82), (254, 0)], .ldi, by decide⟩
theorem witness_StepChecksRegisterIndices_op1 :
    ∃ (s : State) (o : Opcode) (op1 : Byte), s.run = .running ∧ Memory.wf s.mem = true ∧ s.byteAt s.pc = some o.byte ∧
      s.byteAt (s.pc + 1) = some op1 ∧ o.format = .r ∧ 8 ≤ op1.toNat := ⟨st [] 254 false [(254, 0x47), (255, 8)], .prn, 8, by decide⟩
theorem witness_StepChecksRegisterIndices_op2 :
    ∃ (s : State) (o : Opcode) (op1 op2 : Byte), s.run = .running ∧ Memory.wf s.mem = true ∧ s.byteAt s.pc = some o.byte ∧
      s.byteAt (s.pc + 1) = some op1 ∧ s.byteAt (s.pc + 2) = some op2 ∧ o.format = .rr ∧ op1.toNat < 8 ∧ 8 ≤ op2.toNat :=
  ⟨st [] 253 false [(253, 0xA0), (254, 7), (255, 8)], .add, 7, 8, by decide⟩
theorem witness_StepChecksRegisterIndices_imm :
    ∃ (s : State) (o : Opcode) (op1 op2 : Byte), s.run = .running ∧ Memory.wf s.mem = true ∧ s.byteAt s.pc = some o.byte ∧
      s.byteAt (s.pc + 1) = some op1 ∧ s.byteAt (s.pc + 2) = some op2 ∧ o.format = .ri ∧ op1.toNat < 8 :=
  ⟨st [] 253 false [(253, 0x82), (254, 7), (255, 255)], .ldi, 7, 255, by decide⟩
theorem witness_ExecChecksRegisterIndices : (Instr.ldi 8 0).wellFormed = false ∧ (Instr.add 7 8).wellFormed = false := by decide
theorem witness_StepsOnlyWhileRunning :
    (st [] 0 false []).run = .running ∧ (halt (st [] 0 false [])).run = .halted ∧
    (raise .formatError (st [] 0 false [])).run = .faulted { error := .formatError, address := 0 } := ⟨rfl, rfl, rfl⟩
theorem witness_FaultsArePrecise :
    ∃ (s t : State), Memory.wf s.mem = true ∧ step s = .next t ∧ (faultOf t).isSome = true :=
  let ⟨t, h1, h2⟩ := stepsTo_next (s := st [] 255 false [(255, 0x47)]) (check := fun t => (faultOf t).isSome) (by decide)
  ⟨_, t, by decide, h1, h2⟩
theorem witness_CoreNeverRaisesLoaderErrors : ∃ (s t : State), step s = .next t ∧ (faultOf t).isSome = true :=
  let ⟨t, h1, h2⟩ := stepsTo_next (s := st [(0, 5), (1, 0)] 0 false [(0, 0xA3), (1, 0), (2, 1)])
    (check := fun t => (faultOf t).isSome) (by decide)
  ⟨_, t, h1, h2⟩
theorem witness_FetchWritesIr_fetched : ∃ (s t : State) (op : Byte), step s = .next t ∧ s.pc < 256 ∧ s.byteAt s.pc = some op :=
  let ⟨t, h, _⟩ := stepsTo_next (s := st [] 255 false [(255, 0x01)]) (check := fun _ => true) (by decide)
  ⟨_, t, 0x01, h, by decide, by decide⟩
theorem witness_FetchWritesIr_not_fetched :
    (∃ (s t : State), step s = .next t ∧ 256 ≤ s.pc) ∧ (∃ (s t : State), step s = .next t ∧ s.byteAt s.pc = none) :=
  let ⟨t, h, _⟩ := stepsTo_next (s := st [] 256 false []) (check := fun _ => true) (by decide)
  let ⟨u, k, _⟩ := stepsTo_next (s := st [] 255 false []) (check := fun _ => true) (by decide)
  ⟨⟨_, t, h, by decide⟩, ⟨_, u, k, by decide⟩⟩
theorem witness_OperandBytesAreUsedWhole :
    (∃ s : State, s.run = .running ∧ s.pc + 2 < 256 ∧ s.byteAt (s.pc + 1) = some 7 ∧ s.byteAt s.pc = some 0x82 ∧
      s.byteAt (s.pc + 2) = some 255) ∧
    (∃ (s : State) (x y : Byte), s.run = .running ∧ s.pc + 2 < 256 ∧ s.byteAt (s.pc + 1) = some 7 ∧ s.byteAt s.pc = some 0xA0 ∧
      s.byteAt (s.pc + 2) = some 0 ∧ s.reg 7 = some x ∧ s.reg 0 = some y) :=
  ⟨⟨st [] 253 false [(253, 0x82), (254, 7), (255, 255)], by decide⟩,
    ⟨st [(0, 12)] 253 false [(253, 0xA0), (254, 7), (255, 0)], 0xF4, 12, by decide⟩⟩
theorem witness_LdiLoadsImmediate : 8 ≤ (8#8 : Byte).toNat := by decide
/-- One register holds a value, or none: the hypotheses of PRN's and JMP's statements. -/
def RegisterOperandCases : Prop :=
  (∃ (s : State) (a : Reg) (v : Byte), s.reg a = some v) ∧ (∃ (s : State) (a : Reg), s.reg a = none)

theorem witness_PrnEmitsRegister : RegisterOperandCases :=
  ⟨⟨st [] 0 false [], 7, 0xF4, rfl⟩, ⟨st [] 0 false [], 0, rfl⟩⟩
theorem witness_JmpSetsPc : RegisterOperandCases := witness_PrnEmitsRegister
/-- Both operand registers hold a value; the first does not; only the second does not: the hypotheses of the statements of
MULT, ADD, AND and CMP. -/
def AluOperandCases : Prop :=
  (∃ (s : State) (a b : Reg) (x y : Byte), s.reg a = some x ∧ s.reg b = some y) ∧ (∃ (s : State) (a : Reg), s.reg a = none) ∧
    (∃ (s : State) (a b : Reg), (s.reg a).isSome = true ∧ s.reg b = none)

theorem witness_MultWrapsModulo256 : AluOperandCases :=
  ⟨⟨st [(0, 255)] 0 false [], 0, 7, 255, 0xF4, rfl, rfl⟩, ⟨st [] 0 false [], 0, rfl⟩, ⟨st [] 0 false [], 7, 0, rfl, rfl⟩⟩
theorem witness_AddWrapsModulo256 : AluOperandCases := witness_MultWrapsModulo256
theorem witness_AndWritesBitwiseAnd : AluOperandCases := witness_MultWrapsModulo256
theorem witness_CmpWritesEquality : AluOperandCases := witness_MultWrapsModulo256
theorem witness_AddAndMultKeepLowEightBits : AluOperandCases := witness_MultWrapsModulo256
theorem witness_DivWritesFloorQuotient :
    (∃ (s : State) (a b : Reg) (x y : Byte), s.reg a = some x ∧ s.reg b = some y ∧ y ≠ 0) ∧
    (∃ (s : State) (a b : Reg), (s.reg a).isSome = true ∧ s.reg b = some 0) :=
  ⟨⟨st [(0, 0), (1, 1)] 0 false [], 0, 1, 0, 1, by decide⟩, ⟨st [(1, 0)] 0 false [], 7, 1, by decide⟩⟩
theorem witness_DivWritesFloorQuotient_unwritten : AluOperandCases := witness_MultWrapsModulo256
theorem witness_JeqJumpsWhenEqual :
    (∃ (s : State) (a : Reg) (v : Byte), s.eqFlag = true ∧ s.reg a = some v) ∧ (∃ s : State, s.eqFlag = false) ∧
    (∃ (s : State) (a : Reg), s.eqFlag = true ∧ s.reg a = none) :=
  ⟨⟨st [] 0 true [], 7, 0xF4, by decide⟩, ⟨st [] 0 false [], rfl⟩, ⟨st [] 0 true [], 0, by decide⟩⟩
theorem witness_JneJumpsWhenNotEqual :
    (∃ (s : State) (a : Reg) (v : Byte), s.eqFlag = false ∧ s.reg a = some v) ∧ (∃ s : State, s.eqFlag = true) ∧
    (∃ (s : State) (a : Reg), s.eqFlag = false ∧ s.reg a = none) :=
  ⟨⟨st [] 0 false [], 7, 0xF4, by decide⟩, ⟨st [] 0 true [], rfl⟩, ⟨st [] 0 false [], 0, by decide⟩⟩
theorem witness_PushStoresBelowSp :
    (∃ (s : State) (sp v : Byte), s.reg 7 = some sp ∧ pushSlot s = .ok 0 ∧ s.reg 0 = some v ∧ sp ≠ 0) ∧
    (∃ s : State, s.reg 7 = some 255 ∧ pushSlot s = .ok 254 ∧ (some (BitVec.ofNat 8 254) : Option Byte) = some 254) ∧
    (∃ s : State, s.reg 7 = some 0) ∧ (∃ (s : State) (sp : Byte), s.reg 7 = some sp ∧ sp ≠ 0 ∧ s.reg 0 = none) :=
  ⟨⟨st [(7, 1), (0, 9)] 0 false [], 1, 9, rfl, rfl, rfl, by decide⟩, ⟨st [(7, 255)] 0 false [], rfl, rfl, rfl⟩,
    ⟨st [(7, 0)] 0 false [], rfl⟩, ⟨st [(7, 1)] 0 false [], 1, rfl, by decide, rfl⟩⟩
theorem witness_PopLoadsFromSp :
    (∃ (s : State) (sp v : Byte), s.reg 7 = some sp ∧ s.byteAt sp.toNat = some v ∧ sp.toNat < 255) ∧
    (∃ (s : State) (sp v : Byte), s.reg 7 = some sp ∧ s.byteAt sp.toNat = some v ∧ v.toNat < 255) ∧
    (∃ (s : State) (sp : Byte), s.reg 7 = some sp ∧ s.byteAt sp.toNat = none) ∧
    (∃ (s : State) (v : Byte), s.reg 7 = some 255 ∧ s.byteAt 255 = some v) ∧
    (∃ (s : State) (sp : Byte), s.reg 7 = some sp ∧ s.byteAt sp.toNat = some 255) :=
  ⟨⟨st [(7, 254)] 0 false [(254, 3)], 254, 3, by decide⟩, ⟨st [(7, 255)] 0 false [(255, 254)], 255, 254, by decide⟩,
    ⟨st [] 0 false [], 0xF4, by decide⟩, ⟨st [(7, 255)] 0 false [(255, 3)], 3, by decide⟩,
    ⟨st [(7, 0)] 0 false [(0, 255)], 0, by decide⟩⟩
theorem witness_CallPushesReturnAddress :
    (∃ (s : State) (v : Byte), s.reg 7 = some 1 ∧ pushSlot s = .ok 0 ∧ s.pc + 2 < 256 ∧ s.reg 0 = some v) ∧
    (∃ s : State, s.reg 7 = some 0) ∧ (∃ (s : State) (sp : Byte), s.reg 7 = some sp ∧ sp ≠ 0 ∧ 256 ≤ s.pc + 2) ∧
    (∃ (s : State) (sp : Byte), s.reg 7 = some sp ∧ sp ≠ 0 ∧ s.pc + 2 < 256 ∧ s.reg 0 = none) :=
  ⟨⟨st [(7, 1), (0, 9)] 253 false [], 9, rfl, rfl, by decide, rfl⟩, ⟨st [(7, 0)] 0 false [], rfl⟩,
    ⟨st [(7, 1)] 254 false [], 1, by decide⟩, ⟨st [(7, 1)] 253 false [], 1, by decide⟩⟩
theorem witness_RetPopsPc :
    (∃ (s : State) (sp target : Byte), s.reg 7 = some sp ∧ s.byteAt sp.toNat = some target ∧ sp ≠ 255) ∧
    (∃ (s : State) (sp : Byte), s.reg 7 = some sp ∧ s.byteAt sp.toNat = none) ∧
    (∃ (s : State), s.reg 7 = some 255 ∧ (s.byteAt 255).isSome = true) :=
  ⟨⟨st [(7, 254)] 0 false [(254, 255)], 254, 255, by decide⟩, ⟨st [] 0 false [], 0xF4, by decide⟩,
    ⟨st [(7, 255)] 0 false [(255, 0)], by decide⟩⟩
theorem witness_DivIsFloorDivision :
    (∃ (s : State) (a b : Reg) (n d : Byte), s.reg a = some n ∧ s.reg b = some d ∧ 1 ≤ d.toNat) ∧
    (∃ (s : State) (a b : Reg) (n d : Byte), s.reg a = some n ∧ s.reg b = some d ∧ d.toNat = 0) :=
  ⟨⟨st [(0, 0), (1, 1)] 0 false [], 0, 1, 0, 1, by decide⟩, ⟨st [(0, 0)] 0 false [], 0, 0, 0, 0, by decide⟩⟩
theorem witness_EqualityFlagRule :
    (∃ s t : State, exec (.jeq 7) s = .next t) ∧ (∃ s t : State, exec .ret s = .next t) ∧
    (∃ (s : State) (x y : Byte), s.reg 0 = some x ∧ s.reg 7 = some y) ∧
    (∃ s t : State, step s = .next t ∧ (faultOf t).isSome = true) :=
  let ⟨t, h, _⟩ := runsTo_next (i := .jeq 7) (s := st [] 0 true []) (check := fun _ => true) (by decide)
  let ⟨u, k, _⟩ := runsTo_next (i := .ret) (s := st [] 0 true []) (check := fun _ => true) (by decide)
  ⟨⟨_, t, h⟩, ⟨_, u, k⟩, ⟨st [(0, 3)] 0 false [], 3, 0xF4, by decide⟩, witness_CoreNeverRaisesLoaderErrors⟩
theorem witness_EqDrawMattersOnlyToConditionalJumps :
    ∃ s t : State, s.byteAt s.pc ≠ some 0x55 ∧ s.byteAt s.pc ≠ some 0x56 ∧ step s = .next t ∧ s.byteAt s.pc = some 0xA7 ∧
      t.run = .running :=
  let ⟨t, h1, h2⟩ := stepsTo_next (s := st [(0, 3)] 0 false [(0, 0xA7), (1, 0), (2, 7)])
    (check := fun t => decide (t.run = .running)) (by decide)
  ⟨_, t, by decide, by decide, h1, by decide, of_decide_eq_true h2⟩
theorem witness_IrAndOutputAreNeverRead : ∃ s t : State, exec (.prn 7) s = .next t :=
  let ⟨t, h, _⟩ := runsTo_next (i := .prn 7) (s := st [] 0 true []) (check := fun _ => true) (by decide)
  ⟨_, t, h⟩
theorem witness_NextPcOfEveryInstruction :
    (∃ s t : State, s.run = .running ∧ exec (.call (regByte 7)) s = .next t ∧ t.run = .running) ∧
    (∃ s t : State, s.run = .running ∧ exec (.jeq 0) s = .next t ∧ t.run = .faulted { error := .uninitialisedRegister 0, address := 0 }) :=
  let ⟨t, h1, h2⟩ := runsTo_next (i := .call (regByte 7)) (s := st [] 253 false [])
    (check := fun t => decide (t.run = .running)) (by decide)
  let ⟨u, k1, k2⟩ := runsTo_next (i := .jeq 0) (s := st [] 0 true [])
    (check := fun t => decide (t.run = .faulted { error := .uninitialisedRegister 0, address := 0 })) (by decide)
  ⟨⟨_, t, rfl, h1, of_decide_eq_true h2⟩, ⟨_, u, rfl, k1, of_decide_eq_true k2⟩⟩
theorem witness_OnlyDestinationRegistersChange : ∃ (s t : State) (q : Reg), exec (.pop (regByte 1)) s = .next t ∧ t.reg q ≠ s.reg q :=
  let ⟨t, h1, h2⟩ := runsTo_next (i := .pop (regByte 1)) (s := st [] 0 false [(0xF4, 9)])
    (check := fun t => decide (t.reg 1 = some 9)) (by decide)
  ⟨_, t, 1, h1, by rw [of_decide_eq_true h2]; decide⟩
theorem witness_OnlyPrnEmits :
    (∃ s t : State, step s = .next t ∧ s.byteAt s.pc = some 0x47 ∧ t.run = .running) ∧
    (∃ s t : State, step s = .next t ∧ ¬ (s.byteAt s.pc = some 0x47 ∧ t.run = .running)) :=
  let ⟨t, h1, h2⟩ := stepsTo_next (s := st [] 254 false [(254, 0x47), (255, 7)])
    (check := fun t => decide (t.run = .running)) (by decide)
  let ⟨u, k1, k2⟩ := stepsTo_next (s := st [] 254 false [(254, 0x47), (255, 0)])
    (check := fun t => decide (t.run ≠ .running)) (by decide)
  ⟨⟨_, t, h1, by decide, of_decide_eq_true h2⟩, ⟨_, u, k1, fun h => of_decide_eq_true k2 h.2⟩⟩
theorem witness_OnlyPushAndCallStore : ∃ (s t : State) (a : Nat), step s = .next t ∧ t.byteAt a ≠ s.byteAt a :=
  let ⟨t, h1, h2⟩ := stepsTo_next (s := st [(7, 1), (0, 9)] 1 false [(1, 0x45), (2, 0)])
    (check := fun t => decide (t.byteAt 0 = some 9)) (by decide)
  ⟨_, t, 0, h1, by rw [of_decide_eq_true h2]; decide⟩
theorem witness_OnlyHltReachesHalted : ∃ s t : State, step s = .next t ∧ t.run = .halted :=
  let ⟨t, h1, h2⟩ := stepsTo_next (s := st [] 255 false [(255, 0x01)]) (check := fun t => decide (t.run = .halted)) (by decide)
  ⟨_, t, h1, of_decide_eq_true h2⟩
theorem witness_StackPointerNeverWraps :
    (∃ s : State, s.reg 7 = some 0) ∧
    (∃ (s : State) (v : Byte), s.reg 7 = some 255 ∧ s.byteAt 255 = some v ∧ (0 : Reg) ≠ 7) ∧
    (∃ s : State, s.reg 7 = some 255 ∧ s.byteAt 255 = some 255) ∧
    (∃ (s : State) (sp : Byte), s.reg 7 = some sp ∧ sp ≠ 0 ∧ s.pc = 254) ∧
    (∃ s : State, s.reg 7 = some 1 ∧ (1 : Byte) ≠ 0 ∧ (s.reg 7).isSome = true ∧ s.pc + 2 < 256) ∧
    (∃ (s : State) (v : Byte), s.reg 7 = some 254 ∧ (254 : Byte) ≠ 255 ∧ s.byteAt 254 = some v ∧ (0 : Reg) ≠ 7) ∧
    (∃ (s : State) (v : Byte), s.reg 7 = some 255 ∧ s.byteAt 255 = some v ∧ v ≠ 255) :=
  ⟨⟨st [(7, 0)] 0 false [], rfl⟩, ⟨st [(7, 255)] 0 false [(255, 3)], 3, by decide⟩, ⟨st [(7, 255)] 0 false [(255, 255)], by decide⟩,
    ⟨st [] 254 false [], 0xF4, by decide⟩, ⟨st [(7, 1)] 253 false [], by decide⟩,
    ⟨st [(7, 254)] 0 false [(254, 1)], 1, by decide⟩, ⟨st [(7, 255)] 0 false [(255, 254)], 254, by decide⟩⟩
theorem witness_RetReturnsAfterCall :
    ∃ (s t : State), exec (.call (regByte 7)) s = .next t ∧ s.run = .running ∧ t.run = .running :=
  let ⟨t, h1, h2⟩ := runsTo_next (i := .call (regByte 7)) (s := st [(7, 1)] 253 false [])
    (check := fun t => decide (t.run = .running)) (by decide)
  ⟨_, t, h1, rfl, of_decide_eq_true h2⟩
theorem witness_PopRestoresPushedByte :
    ∃ (s t : State), (0 : Reg) ≠ 7 ∧ exec (.push (regByte 0)) s = .next t ∧ s.run = .running ∧ t.run = .running :=
  let ⟨t, h1, h2⟩ := runsTo_next (i := .push (regByte 0)) (s := st [(7, 1), (0, 9)] 0 false [])
    (check := fun t => decide (t.run = .running)) (by decide)
  ⟨_, t, by decide, h1, rfl, of_decide_eq_true h2⟩
theorem witness_MemoryReadsWhatWasWritten :
    ((-1 : Int) < 0 ∨ (255 : Int) < -1) ∧ ((256 : Int) < 0 ∨ (255 : Int) < 256) ∧ ((0 : Int) ≤ 0 ∧ (0 : Int) ≤ 255) ∧
    ((0 : Int) ≤ 255 ∧ (255 : Int) ≤ 255) := by decide
theorem witness_NextFetchSeesStore :
    ∃ (s t u : State), s.run = .running ∧ s.byteAt s.pc = some 0x45 ∧ s.pc + 1 < 256 ∧ s.byteAt (s.pc + 1) = some (regByte 0) ∧
      s.reg 0 = some 1 ∧ pushSlot s = .ok (s.pc + 2) ∧ step s = .next t ∧ step t = .next u :=
  let ⟨t, h1, h2⟩ := stepsTo_next (s := st [(7, 9), (0, 1)] 6 false [(6, 0x45), (7, 0), (8, 0)])
    (check := fun t => stepsTo t (fun _ => true)) (by decide)
  let ⟨u, h3, _⟩ := stepsTo_next h2
  ⟨_, t, u, rfl, rfl, by decide, rfl, rfl, rfl, h1, h3⟩
theorem witness_SpIsRegisterSeven :
    (∃ s t : State, exec (.ldi (regByte 7) 1) s = .next t) ∧
    (∃ (s t : State), pushSlot s = .ok 254 ∧ exec (.prn (regByte 7)) s = .next t) :=
  let ⟨t, h, _⟩ := runsTo_next (i := .ldi (regByte 7) 1) (s := st [] 0 true []) (check := fun _ => true) (by decide)
  let ⟨u, k, _⟩ := runsTo_next (i := .prn (regByte 7)) (s := st [(7, 255)] 0 true []) (check := fun _ => true) (by decide)
  ⟨⟨_, t, h⟩, ⟨_, u, rfl, k⟩⟩
theorem witness_LoadPlacesImageAtZero :
    (List.replicate 256 (0x01#8 : Byte)).length ≤ 256 ∧ 256 < (List.replicate 257 (0x01#8 : Byte)).length := by
  simp only [List.length_replicate]
  decide
theorem witness_LoaderLines :
    (List.replicate 8 true).foldl (fun n d => 2 * n + d.toNat) 0 = 255 ∧
    (true :: List.replicate 8 false).foldl (fun n d => 2 * n + d.toNat) 0 = 256 ∧
    ([] : List Char) ∈ [[], '#' :: ['c'], ' ' :: '#' :: ['c']] ∧
    (∃ c ∈ significant [' ', '0', '1', '2'], c ≠ '0' ∧ c ≠ '1') := ⟨rfl, rfl, by decide, '2', by decide, by decide, by decide⟩
theorem witness_StatusPortShowsRunState :
    (st [] 0 false []).run = .running ∧ (halt (st [] 0 false [])).run = .halted := ⟨rfl, rfl⟩
/-- A state of a run that meets the invariant and steps on, IR and pc at their bounds. -/
theorem witness_StepKeepsInvariant :
    ∃ s t : State, s.Inv ∧ step s = .next t :=
  let ⟨t, h, _⟩ := stepsTo_next (s := st [] 256 false []) (check := fun _ => true) (by decide)
  ⟨_, t, ⟨by decide, by decide, by decide, fun _ h => (by cases h), fun h => (by cases h), fun h => (by cases h)⟩, h⟩
theorem witness_InvariantAlongEveryRun :
    ∃ s t : State, State.loadWith true 0 [0x01] = .ok s ∧ Host.Core.run Sys2Proof.core 1 s = .next t ∧ t.run = .halted :=
  ⟨_, _, rfl, rfl, rfl⟩

end Sys2Proof.Tests
end

section
/-! SUPPORT. Everything the completion of an instruction says: `Completes` has one constructor for each way an instruction
completes, and each field's rule is read off it once. -/

namespace Sys2Proof.Machine

open Sys2Proof

/-! ### What the completion of an instruction does -/

/-- Instruction `i` completes in `s` and leaves `t`: its operands, the values it read, and its writes (R100 to R144). -/
inductive Completes (s : State) : Instr → State → Prop
  | hlt : Completes s .hlt (halt s)
  | ldi (r : Reg) (v : Byte) : Completes s (.ldi (regByte r) v) (advancePc 3 (writeReg r v.toNat s))
  | prn (r : Reg) (v : Byte) (hv : s.reg r = some v) : Completes s (.prn (regByte r)) (advancePc 2 (emit v s))
  | mult (ra rb : Reg) (x y : Byte) (hx : s.reg ra = some x) (hy : s.reg rb = some y) :
      Completes s (.mult (regByte ra) (regByte rb)) (advancePc 3 (writeReg ra (x.toNat * y.toNat) s))
  | add (ra rb : Reg) (x y : Byte) (hx : s.reg ra = some x) (hy : s.reg rb = some y) :
      Completes s (.add (regByte ra) (regByte rb)) (advancePc 3 (writeReg ra (x.toNat + y.toNat) s))
  | div (ra rb : Reg) (x y : Byte) (hx : s.reg ra = some x) (hy : s.reg rb = some y) (h0 : y.toNat ≠ 0) :
      Completes s (.div (regByte ra) (regByte rb)) (advancePc 3 (writeReg ra (x.toNat / y.toNat) s))
  | and (ra rb : Reg) (x y : Byte) (hx : s.reg ra = some x) (hy : s.reg rb = some y) :
      Completes s (.and (regByte ra) (regByte rb)) (advancePc 3 (writeReg ra (x &&& y).toNat s))
  | cmp (ra rb : Reg) (x y : Byte) (hx : s.reg ra = some x) (hy : s.reg rb = some y) :
      Completes s (.cmp (regByte ra) (regByte rb)) (advancePc 3 (setEq (equalityFlag x y) s))
  | jmp (r : Reg) (v : Byte) (hv : s.reg r = some v) : Completes s (.jmp (regByte r)) (setPc v.toNat s)
  | jeqTaken (r : Reg) (v : Byte) (heq : s.eqFlag = true) (hv : s.reg r = some v) :
      Completes s (.jeq (regByte r)) (setPc v.toNat s)
  | jeqSkipped (r : Reg) (heq : s.eqFlag = false) : Completes s (.jeq (regByte r)) (advancePc 2 s)
  | jneTaken (r : Reg) (v : Byte) (heq : s.eqFlag = false) (hv : s.reg r = some v) :
      Completes s (.jne (regByte r)) (setPc v.toNat s)
  | jneSkipped (r : Reg) (heq : s.eqFlag = true) : Completes s (.jne (regByte r)) (advancePc 2 s)
  | push (r : Reg) (slot : Nat) (v : Byte) (hslot : pushSlot s = .ok slot) (hlt : slot < 255)
      (hv : readAfterDecrement r slot s = .ok v) :
      Completes s (.push (regByte r)) (advancePc 2 (writeReg Config.spReg slot (storeByte slot v s)))
  | pop (r : Reg) (sp v : Byte) (sp2 : Nat) (hsp : s.reg Config.spReg = some sp) (hv : s.byteAt sp.toNat = some v)
      (hsp2 : incrementedSp (if r = Config.spReg then v else sp) = .ok sp2) :
      Completes s (.pop (regByte r)) (advancePc 2 (writeReg Config.spReg sp2 (writeReg r v.toNat s)))
  | call (r : Reg) (slot : Nat) (ret target : Byte) (hslot : pushSlot s = .ok slot) (hlt : slot < 255)
      (hret : returnAddress s = .ok ret) (htarget : readAfterDecrement r slot s = .ok target) :
      Completes s (.call (regByte r)) (setPc target.toNat (writeReg Config.spReg slot (storeByte slot ret s)))
  | ret (sp target : Byte) (sp2 : Nat) (hsp : s.reg Config.spReg = some sp)
      (htarget : s.byteAt sp.toNat = some target) (hsp2 : incrementedSp sp = .ok sp2) :
      Completes s .ret (setPc target.toNat (writeReg Config.spReg sp2 s))

/-- A quotient is computed from a divisor that is not zero (R112). -/
theorem divValue_ok {rb : Reg} {x y : Byte} {v : Nat} (h : divValue rb x y = .ok v) :
    y.toNat ≠ 0 ∧ v = x.toNat / y.toNat := by
  unfold divValue at h
  split at h
  · cases h
  · cases h
    exact ⟨by assumption, rfl⟩

/-- An effect that raises nothing is its instruction's completion. -/
theorem effectOf_ok {i : Instr} {s t : State} (h : effectOf i s = .ok t) : Completes s i t := by
  cases i with
  | hlt =>
    cases h
    exact .hlt
  | ldi a v =>
    obtain ⟨r, rfl, rfl⟩ := ldiEffect_ok h
    exact .ldi r v
  | prn a =>
    obtain ⟨r, v, rfl, hv, rfl⟩ := prnEffect_ok h
    exact .prn r v hv
  | mult a b =>
    obtain ⟨ra, rb, x, y, v, rfl, rfl, hx, hy, hf, rfl⟩ := aluEffect_ok h
    cases hf
    exact .mult ra rb x y hx hy
  | add a b =>
    obtain ⟨ra, rb, x, y, v, rfl, rfl, hx, hy, hf, rfl⟩ := aluEffect_ok h
    cases hf
    exact .add ra rb x y hx hy
  | div a b =>
    obtain ⟨ra, rb, x, y, v, rfl, rfl, hx, hy, hf, rfl⟩ := aluEffect_ok h
    obtain ⟨h0, rfl⟩ := divValue_ok hf
    exact .div ra rb x y hx hy h0
  | and a b =>
    obtain ⟨ra, rb, x, y, v, rfl, rfl, hx, hy, hf, rfl⟩ := aluEffect_ok h
    cases hf
    exact .and ra rb x y hx hy
  | cmp a b =>
    obtain ⟨ra, rb, x, y, rfl, rfl, hx, hy, rfl⟩ := cmpEffect_ok h
    exact .cmp ra rb x y hx hy
  | jmp a =>
    obtain ⟨r, rfl, ⟨-, v, hv, rfl⟩ | ⟨hno, -⟩⟩ := jumpEffect_ok h
    · exact .jmp r v hv
    · cases hno
  | jeq a =>
    obtain ⟨r, rfl, ⟨heq, v, hv, rfl⟩ | ⟨heq, rfl⟩⟩ := jumpEffect_ok h
    · exact .jeqTaken r v heq hv
    · exact .jeqSkipped r heq
  | jne a =>
    obtain ⟨r, rfl, ⟨heq, v, hv, rfl⟩ | ⟨heq, rfl⟩⟩ := jumpEffect_ok h
    · exact .jneTaken r v (by simpa using heq) hv
    · exact .jneSkipped r (by simpa using heq)
  | push a =>
    obtain ⟨r, slot, v, rfl, hslot, hlt, hv, rfl⟩ := pushEffect_ok h
    exact .push r slot v hslot hlt hv
  | pop a =>
    obtain ⟨r, sp, v, sp2, rfl, hsp, hv, hsp2, rfl⟩ := popEffect_ok h
    exact .pop r sp v sp2 hsp hv hsp2
  | call a =>
    obtain ⟨r, slot, ret, target, rfl, hslot, hlt, hret, htarget, rfl⟩ := callEffect_ok h
    exact .call r slot ret target hslot hlt hret htarget
  | ret =>
    obtain ⟨sp, target, sp2, hsp, htarget, hsp2, rfl⟩ := retEffect_ok h
    exact .ret sp target sp2 hsp htarget hsp2

/-- An executed instruction completes, or takes a fatal error on the state before it (R163). -/
theorem exec_completes_or_raises {i : Instr} {s t : State} (h : exec i s = .next t) :
    Completes s i t ∨ ∃ e, t = raise e s := by
  rcases exec_cases h with hok | ⟨e, -, rfl⟩
  · exact .inl (effectOf_ok hok)
  · exact .inr ⟨e, rfl⟩

namespace Completes

variable {s t : State} {i : Instr}

/-- No instruction writes IR (R29). -/
theorem ir (h : Completes s i t) : t.ir = s.ir := by cases h <;> rfl

/-- Only CMP writes EQ (R26). -/
theorem eqFlag (h : Completes s i t) (hcmp : ∀ a b, i ≠ .cmp a b) : t.eqFlag = s.eqFlag := by
  cases h with
  | cmp ra rb => exact absurd rfl (hcmp (regByte ra) (regByte rb))
  | _ => rfl

/-- Only HLT writes the run state (R28, R100). -/
theorem run_cases (h : Completes s i t) : (i = .hlt ∧ t = halt s) ∨ (i.opcode ≠ .hlt ∧ t.run = s.run) := by
  cases h with
  | hlt => exact .inl ⟨rfl, rfl⟩
  | _ => exact .inr ⟨nofun, rfl⟩

/-- An instruction that completes in RUNNING does not end in FAULTED. -/
theorem run_ne_faulted (h : Completes s i t) (hrun : s.run = .running) (r : FaultRecord) : t.run ≠ .faulted r := by
  rcases h.run_cases with ⟨-, rfl⟩ | ⟨-, ht⟩
  · simp
  · simp [ht, hrun]

/-- Only PRN emits, exactly its register's value (R33, R169). -/
theorem output_cases (h : Completes s i t) :
    (∃ r v, i = .prn (regByte r) ∧ s.reg r = some v ∧ t.output = s.output ++ [v]) ∨
      (i.opcode ≠ .prn ∧ t.output = s.output) := by
  cases h with
  | prn r v hv => exact .inl ⟨r, v, rfl, hv, rfl⟩
  | _ => exact .inr ⟨nofun, rfl⟩

/-- Only PUSH and CALL store, one byte, to the cell the stack address names (R31, R33). -/
theorem mem_cases (h : Completes s i t) :
    ((i.opcode = .push ∨ i.opcode = .call) ∧
        ∃ slot v, pushSlot s = .ok slot ∧ slot < 255 ∧ t.mem = Memory.put s.mem slot v) ∨
      t.mem = s.mem := by
  cases h with
  | push r slot v hslot hlt => exact .inl ⟨.inl rfl, slot, v, hslot, hlt, rfl⟩
  | call r slot ret target hslot hlt => exact .inl ⟨.inr rfl, slot, ret, hslot, hlt, rfl⟩
  | _ => exact .inr rfl

/-- An instruction keeps memory canonical (R7, R40). -/
theorem mem_wf (h : Completes s i t) (hwf : Memory.wf s.mem = true) : Memory.wf t.mem = true := by
  rcases h.mem_cases with ⟨-, slot, v, -, hlt, ht⟩ | ht
  · exact ht ▸ put_wf v hwf (by omega)
  · exact ht ▸ hwf

/-- A byte of memory that an instruction changes is the one a PUSH or CALL stores, just below SP (R31, R33). -/
theorem byteAt_changed (h : Completes s i t) {a : Nat} (ha : t.byteAt a ≠ s.byteAt a) :
    (i.opcode = .push ∨ i.opcode = .call) ∧ ∃ sp, s.reg Config.spReg = some sp ∧ sp.toNat = a + 1 := by
  rcases h.mem_cases with ⟨hi, slot, v, hslot, -, ht⟩ | ht
  · have hat : a = slot := by
      by_contra hne
      exact ha (by simp only [State.byteAt, ht, cell_put_other _ _ hne])
    exact ⟨hi, hat ▸ pushSlot_ok hslot⟩
  · exact absurd (by simp only [State.byteAt, ht]) ha

end Completes

/-- A write leaves every register that held a value holding one (R21). -/
theorem writeReg_reg_isSome {r q : Reg} {v : Nat} {s : State} (h : (s.reg q).isSome = true) :
    ((writeReg r v s).reg q).isSome = true := by
  rw [writeReg_reg]
  split
  · rfl
  · exact h

/-- A write changes its own register only (R21). -/
theorem eq_of_writeReg_reg_ne {r q : Reg} {v : Nat} {s : State} (h : (writeReg r v s).reg q ≠ s.reg q) : r = q := by
  by_contra hne
  exact h (by rw [writeReg_reg, if_neg hne])

end Sys2Proof.Machine
end

section
/-! SUPPORT. The fetch and decode stages both ways: from the fetched bytes to the instruction, and the three ends of a
step (`StepEnd`), from which every statement about a step is read off. -/

namespace Sys2Proof.Machine

open Sys2Proof

/-- Different kinds have different opcode bytes (R65). -/
theorem opcode_byte_injective : Function.Injective Opcode.byte := fun o p h =>
  Option.some.inj ((ofByte_byte o).symm.trans (h ▸ ofByte_byte p))

/-- The bytes at pc are the instruction's encoding, and lie in 0..255 (R45, R81, R82). -/
structure Fetched (s : State) (i : Instr) : Prop where
  bytes : ∀ k b, (encode i)[k]? = some b → s.byteAt (s.pc + k) = some b
  inRange : s.pc + i.opcode.length ≤ 256

/-- The byte at pc is the instruction's opcode (R81). -/
theorem Fetched.opcode {s : State} {i : Instr} (h : Fetched s i) : s.byteAt s.pc = some i.opcode.byte := h.bytes 0 _ rfl

/-- The byte at pc determines the kind of the instruction (R65). -/
theorem Fetched.opcode_eq {s : State} {i : Instr} (h : Fetched s i) {o : Opcode} (ho : s.byteAt s.pc = some o.byte) :
    i.opcode = o :=
  opcode_byte_injective (Option.some.inj (h.opcode.symm.trans ho))

/-- A fetched instruction begins at an address 0..255 (R81). -/
theorem Fetched.pc_lt {s : State} {i : Instr} (h : Fetched s i) : s.pc < 256 := by
  have hlen := (length_range i.opcode).1
  have := h.inRange
  omega

/-- The encoding of an assembled instruction: its opcode, then as many operand bytes as its length leaves (R60, R61). -/
theorem encode_assemble_getElem? {o : Opcode} {a b c : Byte} {k : Nat}
    (h : (encode (o.assemble a b))[k]? = some c) :
    (k = 0 ∧ c = o.byte) ∨ (k = 1 ∧ 1 < o.length ∧ c = a) ∨ (k = 2 ∧ 2 < o.length ∧ c = b) := by
  simp only [encode, opcode_assemble, operands_assemble] at h
  match k with
  | 0 => exact .inl ⟨rfl, by simpa using h.symm⟩
  | 1 =>
    obtain ⟨hlen, hab⟩ : 0 < o.length - 1 ∧ a = c := by simpa [List.getElem?_take] using h
    exact .inr (.inl ⟨rfl, by omega, hab.symm⟩)
  | 2 =>
    obtain ⟨hlen, hbc⟩ : 1 < o.length - 1 ∧ b = c := by simpa [List.getElem?_take] using h
    exact .inr (.inr ⟨rfl, by omega, hbc.symm⟩)
  | k + 3 => simp at h

/-- An instruction the decode stage answers lies at pc (R61, R82). -/
theorem fetched_of_fetchInstr {op : Byte} {s : State} {i : Instr} (hpc : s.pc < 256) (hop : s.byteAt s.pc = some op)
    (h : fetchInstr op s = .ok i) : op = i.opcode.byte ∧ Fetched s i := by
  obtain ⟨-, -, ho, -, -, hrange⟩ := fetchInstr_ok h hpc
  have hbyte := byte_of_ofByte ho
  refine ⟨hbyte.symm, fun k c hk => ?_, hrange⟩
  simp only [fetchInstr, ho] at h
  obtain ⟨a, ha, h⟩ := bind_ok h
  obtain ⟨b, hb, h⟩ := bind_ok h
  split at h
  · cases h
  · have hi : i.opcode.assemble a b = i := Except.ok.inj h
    rw [← hi] at hk
    rcases encode_assemble_getElem? hk with ⟨rfl, rfl⟩ | ⟨rfl, hlen, rfl⟩ | ⟨rfl, hlen, rfl⟩
    · exact hbyte ▸ hop
    · exact (fetchOperand_ok ha hlen).2
    · exact (fetchOperand_ok hb hlen).2

/-- The three ends of a step (R84, R163). -/
inductive StepEnd (s : State) : State → Prop
  /-- The opcode fetch raises, and IR keeps what it held. -/
  | unfetched (e : FatalError) (hf : fetchOpcode s = .error e) : StepEnd s (raise e s)
  /-- The opcode is fetched, and the rest of the step raises. -/
  | raised (op : Byte) (e : FatalError) (hpc : s.pc < 256) (hop : s.byteAt s.pc = some op) :
      StepEnd s (raise e (setIr op s))
  /-- The instruction at pc completes. -/
  | completed (i : Instr) (t : State) (hf : Fetched s i) (hc : Completes (setIr i.opcode.byte s) i t) : StepEnd s t

/-- A step runs in RUNNING and has one of the three ends (R28, R84). -/
theorem step_end {s t : State} (h : step s = .next t) : s.run = .running ∧ StepEnd s t := by
  obtain ⟨hrun, ⟨e, hf, rfl⟩ | ⟨op, hpc, hop, ⟨e, -, rfl⟩ | ⟨i, hi, hexec⟩⟩⟩ := step_cases h
  · exact ⟨hrun, .unfetched e hf⟩
  · exact ⟨hrun, .raised op e hpc hop⟩
  · obtain ⟨rfl, hfetched⟩ := fetched_of_fetchInstr (s := s) hpc hop (fetchInstr_congr op rfl rfl ▸ hi)
    rcases exec_completes_or_raises hexec with hc | ⟨e, rfl⟩
    · exact ⟨hrun, .completed i t hfetched hc⟩
    · exact ⟨hrun, .raised _ e hpc hop⟩

end Sys2Proof.Machine
end

section
/-! SUPPORT. The invariant along a step (O51), and the rules on what a step writes: IR (O14), the run state (O11, O40), the
output port (O38), memory (O39), the registers (O37) and pc (O36). -/

namespace Sys2Proof.Machine

open Sys2Proof

/-! ### The invariant -/

/-- An instruction leaves every register that held a value holding one (R21, R23). -/
theorem Completes.reg_isSome {s t : State} {i : Instr} (h : Completes s i t) {q : Reg} (hq : (s.reg q).isSome = true) :
    (t.reg q).isSome = true := by
  cases h with
  | hlt | prn | cmp | jmp | jeqTaken | jeqSkipped | jneTaken | jneSkipped => exact hq
  | ldi | mult | add | div | and | push | call | ret => exact writeReg_reg_isSome hq
  | pop => exact writeReg_reg_isSome (writeReg_reg_isSome hq)

/-- After an instruction pc is the byte that was jumped to, or at most the address after the instruction (R24, R25). -/
theorem Completes.pc_bound {s t : State} {i : Instr} (h : Completes s i t) :
    t.pc < 256 ∨ t.pc ≤ s.pc + i.opcode.length := by
  cases h with
  | jmp | jeqTaken | jneTaken | call | ret => exact .inl (BitVec.isLt _)
  | hlt => exact .inr (Nat.le_add_right _ _)
  | _ => exact .inr (Nat.le_refl _)

/-- Taking a fatal error keeps the invariant (R163). -/
theorem State.Inv.of_raise {s : State} (h : s.Inv) (e : FatalError) : (raise e s).Inv where
  memCanonical := h.memCanonical
  spHoldsValue := h.spHoldsValue
  pcInRange := h.pcInRange
  faultAtPc := by
    rintro _ ⟨⟩
    rfl
  haltedIr := nofun
  haltedAtHlt := nofun

/-- The opcode fetch, which is in RUNNING, keeps the invariant (R81). -/
theorem State.Inv.of_setIr {s : State} (h : s.Inv) (hrun : s.run = .running) (op : Byte) : (setIr op s).Inv where
  memCanonical := h.memCanonical
  spHoldsValue := h.spHoldsValue
  pcInRange := h.pcInRange
  faultAtPc := h.faultAtPc
  haltedIr := by simp [hrun]
  haltedAtHlt := by simp [hrun]

/-- A fetched instruction that completes keeps the invariant (R24, R29, R100). -/
theorem State.Inv.of_completes {s t : State} {i : Instr} (h : s.Inv) (hrun : s.run = .running) (hf : Fetched s i)
    (hc : Completes (setIr i.opcode.byte s) i t) : t.Inv where
  memCanonical := hc.mem_wf h.memCanonical
  spHoldsValue := hc.reg_isSome h.spHoldsValue
  pcInRange := by
    have hrange := hf.inRange
    rcases hc.pc_bound with hlt | hle
    · omega
    · exact Nat.le_trans hle hrange
  faultAtPc r hr := absurd hr (hc.run_ne_faulted hrun r)
  haltedIr hhalt := by
    rcases hc.run_cases with ⟨rfl, rfl⟩ | ⟨-, ht⟩
    · rfl
    · simp [ht, hrun] at hhalt
  haltedAtHlt hhalt := by
    rcases hc.run_cases with ⟨rfl, rfl⟩ | ⟨-, ht⟩
    · exact hf.opcode
    · simp [ht, hrun] at hhalt

/-- Settles O51, by the three ends of a step. -/
theorem stepKeepsInvariant : Obligations.StepKeepsInvariant := by
  intro s t hinv hstep
  obtain ⟨hrun, hend⟩ := step_end hstep
  cases hend with
  | unfetched e => exact hinv.of_raise e
  | raised op e => exact (hinv.of_setIr hrun op).of_raise e
  | completed i _ hf hc => exact hinv.of_completes hrun hf hc

/-! ### When a step exists -/

/-- A step whose opcode fetch raises (R163). -/
theorem step_of_fetchOpcode_error {s : State} {e : FatalError} (hrun : s.run = .running)
    (hf : fetchOpcode s = .error e) : step s = .next (raise e s) := by
  simp only [step, hrun, hf]

/-- A step whose decode stage raises (R64, R66, R82, R163). -/
theorem step_of_fetchInstr_error {s : State} {op : Byte} {e : FatalError} (hrun : s.run = .running)
    (hop : fetchOpcode s = .ok op) (hi : fetchInstr op (setIr op s) = .error e) :
    step s = .next (raise e (setIr op s)) := by
  simp only [step, hrun, hop, hi]

/-- A step whose fetch and decode stages raise nothing executes the instruction (R84). -/
theorem step_of_fetchInstr_ok {s : State} {op : Byte} {i : Instr} (hrun : s.run = .running)
    (hop : fetchOpcode s = .ok op) (hi : fetchInstr op (setIr op s) = .ok i) : step s = exec i (setIr op s) := by
  simp only [step, hrun, hop, hi]

/-- In RUNNING a step answers a next state (R28, R80). -/
theorem step_of_running {s : State} (hrun : s.run = .running) : ∃ t, step s = .next t := by
  cases hop : fetchOpcode s with
  | error e => exact ⟨_, step_of_fetchOpcode_error hrun hop⟩
  | ok op =>
    cases hi : fetchInstr op (setIr op s) with
    | error e => exact ⟨_, step_of_fetchInstr_error hrun hop hi⟩
    | ok i => exact ⟨_, (step_of_fetchInstr_ok hrun hop hi).trans (exec_eq i _)⟩

/-- A run of one or more steps from a state that has no step stops there. -/
theorem run_of_step_fault {s : State} {f : Fault} (h : step s = .fault f) (n : Nat) :
    Host.Core.run core (n + 1) s = .fault f := by
  have hcore : core.step s = .fault f := h
  simp only [Host.Core.run, hcore]

/-- Settles O11. -/
theorem stepsOnlyWhileRunning : Obligations.StepsOnlyWhileRunning :=
  ⟨fun _ hrun => step_of_running hrun,
    fun _ n hrun => run_of_step_fault (by simp only [step, hrun]) n,
    fun _ _ n hrun => run_of_step_fault (by simp only [step, hrun]) n⟩

/-! ### What a step writes -/

/-- An opcode that is fetched lies in a cell 0..255 that holds a value (R40, R81). -/
theorem not_unfetched {s : State} {op : Byte} (hpc : s.pc < 256) (hop : s.byteAt s.pc = some op) :
    ¬ (256 ≤ s.pc ∨ s.byteAt s.pc = none) := by
  simp [hop, hpc]

/-- Settles O14, by the three ends of a step. -/
theorem fetchWritesIr : Obligations.FetchWritesIr := by
  intro s t hstep
  cases (step_end hstep).2 with
  | unfetched e hf =>
    refine ⟨fun op hpc hop => ?_, fun _ => rfl⟩
    rw [fetchOpcode_some hpc hop] at hf
    cases hf
  | raised op e hpc hop =>
    exact ⟨fun _ _ hop' => Option.some.inj (hop.symm.trans hop'), fun h => absurd h (not_unfetched hpc hop)⟩
  | completed i _ hf hc =>
    exact ⟨fun _ _ hop => hc.ir.trans (Option.some.inj (hf.opcode.symm.trans hop)),
      fun h => absurd h (not_unfetched hf.pc_lt hf.opcode)⟩

/-- Settles O40, by the three ends of a step: only a HLT that completes is not left in RUNNING or FAULTED. -/
theorem onlyHltReachesHalted : Obligations.OnlyHltReachesHalted := by
  intro s t hstep hhalt
  obtain ⟨hrun, hend⟩ := step_end hstep
  cases hend with
  | unfetched | raised => cases hhalt
  | completed i _ hf hc =>
    rcases hc.run_cases with ⟨rfl, rfl⟩ | ⟨-, ht⟩
    · exact ⟨hf.pc_lt, hf.opcode, rfl⟩
    · simp [ht, hrun] at hhalt

/-- Settles O38, by the three ends of a step: only a PRN that completes writes the port. -/
theorem onlyPrnEmits : Obligations.OnlyPrnEmits := by
  intro s t hstep
  obtain ⟨hrun, hend⟩ := step_end hstep
  cases hend with
  | unfetched | raised => exact ⟨fun ⟨_, hrunning⟩ => (nomatch hrunning), fun _ => rfl⟩
  | completed i _ hf hc =>
    rcases hc.output_cases with ⟨r, v, rfl, hv, hout⟩ | ⟨hne, hout⟩
    · have hrunning : t.run = .running := by
        rcases hc.run_cases with ⟨h, -⟩ | ⟨-, ht⟩
        · cases h
        · exact ht.trans hrun
      exact ⟨fun _ => ⟨r, v, hf.bytes 1 _ rfl, hv, hout⟩, fun hno => absurd ⟨hf.opcode, hrunning⟩ hno⟩
    · exact ⟨fun ⟨hop, _⟩ => absurd (hf.opcode_eq (o := .prn) hop) hne, fun _ => hout⟩

/-- Settles O39, by the three ends of a step: a fatal error stores nothing. -/
theorem onlyPushAndCallStore : Obligations.OnlyPushAndCallStore := by
  intro s t a hstep hne
  cases (step_end hstep).2 with
  | unfetched | raised => exact absurd rfl hne
  | completed i _ hf hc =>
    obtain ⟨hi, hsp⟩ := hc.byteAt_changed hne
    have hop := hf.opcode
    refine ⟨?_, hsp⟩
    rcases hi with hi | hi <;> rw [hi] at hop
    · exact .inl hop
    · exact .inr hop

/-- Settles O37, by the two ends of an executed instruction and the ways it completes. -/
theorem onlyDestinationRegistersChange : Obligations.OnlyDestinationRegistersChange := by
  intro i s t q hexec hne
  rcases exec_completes_or_raises hexec with hc | ⟨e, rfl⟩
  · cases hc with
    | hlt | prn | cmp | jmp | jeqTaken | jeqSkipped | jneTaken | jneSkipped => exact hne rfl
    | ldi | mult | add | div | and => exact congrArg regByte (eq_of_writeReg_reg_ne hne)
    | push | call | ret => exact (eq_of_writeReg_reg_ne hne).symm
    | pop r sp v sp2 =>
      by_cases hq : (writeReg r v.toNat s).reg q = s.reg q
      · exact .inr (eq_of_writeReg_reg_ne (fun h => hne (h.trans hq))).symm
      · exact .inl (congrArg regByte (eq_of_writeReg_reg_ne hq))
  · exact absurd rfl hne

/-- The target of a CALL is its register's value, for R7 the value less one (R140, R143). -/
theorem call_target {s : State} {r : Reg} {slot : Nat} {target : Byte} (hslot : pushSlot s = .ok slot)
    (htarget : readAfterDecrement r slot s = .ok target) :
    ∃ v, s.reg r = some v ∧ target.toNat + (if r = 7 then 1 else 0) = v.toNat := by
  by_cases hr : r = 7
  · subst hr
    obtain ⟨sp, hsp, hspSlot⟩ := pushSlot_ok hslot
    rw [readAfterDecrement_sp] at htarget
    cases htarget
    have := sp.isLt
    refine ⟨sp, hsp, ?_⟩
    simp only [BitVec.toNat_ofNat, if_true]
    omega
  · rw [readAfterDecrement_of_ne _ _ hr, readReg_ok] at htarget
    exact ⟨target, htarget, by simp [hr]⟩

/-- Settles O36, by the two ends of an executed instruction and the ways it completes. -/
theorem nextPcOfEveryInstruction : Obligations.NextPcOfEveryInstruction := by
  intro i s t hrun hexec
  rcases exec_completes_or_raises hexec with hc | ⟨e, rfl⟩
  · refine ⟨fun r hr => absurd hr (hc.run_ne_faulted hrun r), fun _ => ?_⟩
    cases hc with
    | hlt | ldi | mult | add | div | and | cmp | prn | push | pop => rfl
    | jmp r v hv => exact ⟨r, v, rfl, hv, rfl⟩
    | jeqTaken r v heq hv => exact ⟨fun _ => ⟨r, v, rfl, hv, rfl⟩, by simp [heq]⟩
    | jeqSkipped r heq => exact ⟨by simp [heq], fun _ => rfl⟩
    | jneTaken r v heq hv => exact ⟨fun _ => ⟨r, v, rfl, hv, rfl⟩, by simp [heq]⟩
    | jneSkipped r heq => exact ⟨by simp [heq], fun _ => rfl⟩
    | call r slot ret target hslot _ _ htarget =>
      obtain ⟨v, hv, hpc⟩ := call_target hslot htarget
      exact ⟨r, v, rfl, hv, hpc⟩
    | ret sp target sp2 hsp htarget => exact ⟨sp, target, hsp, htarget, rfl⟩
  · exact ⟨fun _ _ => rfl, fun h => absurd rfl (h _)⟩

end Sys2Proof.Machine
end

section
/-! SUPPORT. Noninterference: a change of the state that no read sees and that every write commutes with commutes with
every effect (`Transparent`). Replacing EQ is such a change, except for CMP, JEQ and JNE (O33, O34); replacing IR and the
earlier output is one for every instruction (O35). -/

namespace Sys2Proof.Machine

open Sys2Proof

/-- A change of the state that keeps what the memory and register reads see and commutes with every write but EQ's. -/
structure Transparent (g : State → State) : Prop where
  regs : ∀ s, (g s).regs = s.regs
  pc : ∀ s, (g s).pc = s.pc
  mem : ∀ s, (g s).mem = s.mem
  writeReg : ∀ r v s, g (writeReg r v s) = writeReg r v (g s)
  setPc : ∀ n s, g (setPc n s) = setPc n (g s)
  storeByte : ∀ n v s, g (storeByte n v s) = storeByte n v (g s)
  emit : ∀ v s, g (emit v s) = emit v (g s)
  halt : ∀ s, g (halt s) = halt (g s)
  raise : ∀ e s, g (raise e s) = raise e (g s)

/-- A change of the state that keeps EQ and commutes with its write. -/
structure KeepsEq (g : State → State) : Prop where
  eqFlag : ∀ s, (g s).eqFlag = s.eqFlag
  setEq : ∀ b s, g (setEq b s) = setEq b (g s)

/-- Replacing EQ is transparent (R26). -/
theorem transparent_setEq (flag : Bool) : Transparent (setEq flag) := by
  constructor <;> intros <;> rfl

/-- IR replaced, and output events put before those emitted. -/
def withHistory (ir : Byte) (before : List Byte) (s : State) : State :=
  { s with ir := ir, output := before ++ s.output }

/-- Replacing IR and the earlier output is transparent (R29, R169). -/
theorem transparent_withHistory (ir : Byte) (before : List Byte) : Transparent (withHistory ir before) where
  regs _ := rfl
  pc _ := rfl
  mem _ := rfl
  writeReg _ _ _ := rfl
  setPc _ _ := rfl
  storeByte _ _ _ := rfl
  emit v s := by simp only [withHistory, emit, List.append_assoc]
  halt _ := rfl
  raise _ _ := rfl

/-- Replacing IR and the earlier output keeps EQ. -/
theorem keepsEq_withHistory (ir : Byte) (before : List Byte) : KeepsEq (withHistory ir before) where
  eqFlag _ := rfl
  setEq _ _ := rfl

/-- The operands of an ALU instruction depend on the register file only (R64, R23). -/
theorem aluOperands_congr (a b : Byte) {s t : State} (h : t.regs = s.regs) : aluOperands a b t = aluOperands a b s := by
  simp only [aluOperands, readReg_congr _ h]

section
variable {g : State → State} (hg : Transparent g)
include hg

/-- Advancing pc commutes with a transparent change. -/
theorem Transparent.advancePc (n : Nat) (s : State) : g (advancePc n s) = advancePc n (g s) := by
  simp only [Machine.advancePc, hg.setPc, hg.pc]

/-- Committing an effect commutes with a transparent change (R163). -/
theorem Transparent.commit (s : State) (x : Except FatalError State) :
    Machine.commit (g s) (g <$> x) = g (Machine.commit s x) := by
  cases x with
  | ok t => rfl
  | error e => exact (hg.raise e s).symm

/-- A memory write commutes with a transparent change (R43). -/
theorem Transparent.memWrite (access : Access) (a : Int) (v : Byte) (s : State) :
    memWrite access a v (g s) = g <$> memWrite access a v s := by
  unfold Machine.memWrite
  cases addressDecode access a with
  | ok n => exact congrArg Except.ok (hg.storeByte n v s).symm
  | error e => rfl

/-- A value operation commutes with a transparent change (R115). -/
theorem Transparent.aluEffect (f : Reg → Byte → Byte → Except FatalError Nat) (a b : Byte) (s : State) :
    aluEffect f a b (g s) = g <$> aluEffect f a b s := by
  simp only [Machine.aluEffect, aluOperands_congr _ _ (hg.regs s), map_bind, map_pure, hg.advancePc, hg.writeReg]

/-- A jump commutes with a transparent change (R130). -/
theorem Transparent.jumpEffect (taken : Bool) (a : Byte) (s : State) :
    jumpEffect taken a (g s) = g <$> jumpEffect taken a s := by
  cases taken <;>
    simp only [Machine.jumpEffect, Bool.false_eq_true, if_true, if_false, readReg_congr _ (hg.regs s), map_bind, map_pure,
      hg.advancePc, hg.setPc]

/-- Every effect commutes with a transparent change, which has to keep EQ for the three instructions that use EQ. -/
theorem effectOf_transparent {i : Instr} (heq : i.opcode ∈ [Opcode.cmp, .jeq, .jne] → KeepsEq g) (s : State) :
    effectOf i (g s) = g <$> effectOf i s := by
  have hregs := hg.regs s
  cases i with
  | hlt => exact congrArg Except.ok (hg.halt s).symm
  | ldi a v => simp only [effectOf, ldiEffect, map_bind, map_pure, hg.advancePc, hg.writeReg]
  | prn a => simp only [effectOf, prnEffect, readReg_congr _ hregs, map_bind, map_pure, hg.advancePc, hg.emit]
  | mult a b | add a b | div a b | and a b => exact hg.aluEffect _ a b s
  | cmp a b =>
    simp only [effectOf, cmpEffect, aluOperands_congr _ _ hregs, map_bind, map_pure, hg.advancePc,
      (heq (by simp [Instr.opcode])).setEq]
  | jmp a => exact hg.jumpEffect true a s
  | jeq a => simp only [effectOf, (heq (by simp [Instr.opcode])).eqFlag, hg.jumpEffect]
  | jne a => simp only [effectOf, (heq (by simp [Instr.opcode])).eqFlag, hg.jumpEffect]
  | push a =>
    simp only [effectOf, pushEffect, pushSlot_congr hregs, readAfterDecrement_congr _ _ hregs, hg.memWrite, map_bind,
      map_pure, bind_map_left, hg.advancePc, hg.writeReg]
  | pop a =>
    simp only [effectOf, popEffect, readReg_congr _ hregs, memRead_congr _ _ (hg.mem s), map_bind, map_pure,
      hg.advancePc, hg.writeReg]
  | call a =>
    simp only [effectOf, callEffect, pushSlot_congr hregs, returnAddress_congr (hg.pc s),
      readAfterDecrement_congr _ _ hregs, hg.memWrite, map_bind, map_pure, bind_map_left, hg.setPc, hg.writeReg]
  | ret =>
    simp only [effectOf, retEffect, readReg_congr _ hregs, memRead_congr _ _ (hg.mem s), map_bind, map_pure, hg.setPc,
      hg.writeReg]

/-- An instruction commutes with a transparent change, which has to keep EQ for the three instructions that use EQ. -/
theorem exec_transparent {i : Instr} (heq : i.opcode ∈ [Opcode.cmp, .jeq, .jne] → KeepsEq g) {s t : State}
    (h : exec i s = .next t) : exec i (g s) = .next (g t) := by
  rw [exec_eq] at h ⊢
  cases h
  rw [effectOf_transparent hg heq, hg.commit]

end

/-- A state is itself without its output events, with its history put back. -/
theorem withHistory_self (s : State) : withHistory s.ir s.output { s with output := [] } = s := by
  simp only [withHistory, List.append_nil]

/-- Settles O35: what the instruction does without earlier output is done alike after every history. -/
theorem irAndOutputAreNeverRead : Obligations.IrAndOutputAreNeverRead := by
  intro i s t irOther before h
  obtain ⟨u, hu⟩ : ∃ u, exec i { s with output := [] } = .next u := ⟨_, exec_eq i _⟩
  have hcomm (ir : Byte) (past : List Byte) :
      exec i (withHistory ir past { s with output := [] }) = .next (withHistory ir past u) :=
    exec_transparent (transparent_withHistory ir past) (fun _ => keepsEq_withHistory ir past) hu
  have ht := hcomm s.ir s.output
  rw [withHistory_self, h] at ht
  cases ht
  have hother := hcomm irOther before
  simp only [withHistory, List.append_nil] at hother
  exact ⟨u.output, rfl, hother⟩

/-- CMP neither reads EQ nor keeps it (R26, R114). -/
theorem cmpEffect_setEq (a b : Byte) (flag : Bool) (s : State) : cmpEffect a b (setEq flag s) = cmpEffect a b s := by
  simp only [cmpEffect, aluOperands_congr a b (setEq_regs flag s)]
  rfl

/-- CMP with both operands read (R114). -/
theorem exec_cmp_some {a b : Reg} {x y : Byte} {s : State} (hx : s.reg a = some x) (hy : s.reg b = some y) :
    exec (.cmp (regByte a) (regByte b)) s = .next (advancePc 3 (setEq (equalityFlag x y) s)) := by
  simp only [exec_eq, effectOf, cmpEffect, aluOperands_some hx hy, ok_bind]
  rfl

/-- An instruction other than CMP, JEQ and JNE does the same with EQ replaced (R26). -/
theorem exec_setEq {i : Instr} (hi : i.opcode ∉ [Opcode.cmp, .jeq, .jne]) (flag : Bool) {s t : State}
    (h : exec i s = .next t) : exec i (setEq flag s) = .next (setEq flag t) :=
  exec_transparent (transparent_setEq flag) (fun hmem => absurd hmem hi) h

/-- A step that ends in FAULTED leaves EQ (R26, R163). -/
theorem step_faulted_eqFlag {s t : State} {r : FaultRecord} (hstep : step s = .next t) (hr : t.run = .faulted r) :
    t.eqFlag = s.eqFlag := by
  obtain ⟨hrun, hend⟩ := step_end hstep
  cases hend with
  | unfetched | raised => rfl
  | completed i _ _ hc => exact absurd hr (hc.run_ne_faulted hrun r)

/-- Settles O33. -/
theorem equalityFlagRule : Obligations.EqualityFlagRule := by
  refine ⟨fun i s t hcmp hexec => ?_, fun s a b x y flag hx hy => ?_, fun i s t flag hcmp hjeq hjne hexec => ?_,
    fun _ _ _ => step_faulted_eqFlag⟩
  · rcases exec_completes_or_raises hexec with hc | ⟨e, rfl⟩
    · exact hc.eqFlag hcmp
    · rfl
  · exact ⟨_, exec_cmp_some hx hy, rfl, exec_cmp_some (s := setEq flag s) hx hy⟩
  · refine exec_setEq ?_ flag hexec
    cases i with
    | cmp a b => exact absurd rfl (hcmp a b)
    | jeq a => exact absurd rfl (hjeq a)
    | jne a => exact absurd rfl (hjne a)
    | _ => simp [Instr.opcode]

/-- The one instruction of the kind CMP. -/
theorem eq_cmp_of_opcode {i : Instr} (h : i.opcode = .cmp) : ∃ a b, i = .cmp a b := by
  cases i with
  | cmp a b => exact ⟨a, b, rfl⟩
  | _ => cases h

/-- CMP with EQ replaced: what it leaves where it completes is the same, and where it raises differs in EQ at most. -/
theorem exec_cmp_setEq {a b : Byte} (flag : Bool) {s t : State} (h : exec (.cmp a b) s = .next t) :
    exec (.cmp a b) (setEq flag s) = .next t ∨
      (∃ e, t = raise e s) ∧ exec (.cmp a b) (setEq flag s) = .next (setEq flag t) := by
  simp only [exec_eq, effectOf, cmpEffect_setEq]
  rcases exec_cases h with hok | ⟨e, he, rfl⟩
  · have hok : cmpEffect a b s = .ok t := hok
    exact .inl (by rw [hok, commit_ok])
  · have he : cmpEffect a b s = .error e := he
    exact .inr ⟨⟨e, rfl⟩, by rw [he, commit_error]; rfl⟩

/-- Settles O34: replacing EQ commutes with a step whose fetch or decode stage raises or whose instruction does not use
EQ; the step of a CMP that completes forgets EQ instead. -/
theorem eqDrawMattersOnlyToConditionalJumps : Obligations.EqDrawMattersOnlyToConditionalJumps := by
  intro s t flag hjeq hjne hstep
  obtain ⟨hrun, ⟨e, hf, rfl⟩ | ⟨op, hpc, hop, hrest⟩⟩ := step_cases hstep
  · exact ⟨_, step_of_fetchOpcode_error (s := setEq flag s) hrun hf, .inr rfl, fun _ h => nomatch h⟩
  have hfetch : fetchOpcode (setEq flag s) = .ok op := fetchOpcode_some (s := setEq flag s) hpc hop
  obtain ⟨e, hi, rfl⟩ | ⟨i, hi, hexec⟩ := hrest
  · exact ⟨_, step_of_fetchInstr_error (s := setEq flag s) hrun hfetch hi, .inr rfl, fun _ h => nomatch h⟩
  have hstep' : step (setEq flag s) = exec i (setEq flag (setIr op s)) :=
    step_of_fetchInstr_ok (s := setEq flag s) hrun hfetch hi
  obtain ⟨-, hfetched⟩ := fetched_of_fetchInstr (s := s) hpc hop hi
  rw [hstep']
  by_cases hcmp : i.opcode = .cmp
  · obtain ⟨a, b, rfl⟩ := eq_cmp_of_opcode hcmp
    rcases exec_cmp_setEq flag hexec with hsame | ⟨⟨e, rfl⟩, hraise⟩
    · exact ⟨t, hsame, .inl rfl, fun _ _ => rfl⟩
    · exact ⟨_, hraise, .inr rfl, fun _ h => nomatch h⟩
  · have hother : i.opcode ∉ [Opcode.cmp, .jeq, .jne] := by
      have hopcode := hfetched.opcode
      simp only [List.mem_cons, List.not_mem_nil, or_false, not_or]
      refine ⟨hcmp, fun h => ?_, fun h => ?_⟩ <;> rw [h] at hopcode
      · exact hjeq hopcode
      · exact hjne hopcode
    exact ⟨_, exec_setEq hother flag hexec, .inr rfl, fun h _ => absurd (hfetched.opcode_eq (o := .cmp) h) hcmp⟩

end Sys2Proof.Machine
end

section
/-! SUPPORT. The decoder on the bytes at pc is the fetch and decode stages of the step (O7); R7 is the stack pointer
(O47). -/

namespace Sys2Proof.Machine

open Sys2Proof

/-- A byte of the window is the byte at its address (R81, R82). -/
theorem byteAt_of_window {s : State} {k : Nat} {b : Byte} (h : s.window[k]? = some b) : s.byteAt (s.pc + k) = some b := by
  unfold State.window at h
  match k with
  | 0 | 1 | 2 => split at h <;> simp_all
  | k + 3 => split at h <;> simp at h

/-- The operand bytes taken from a byte sequence: those an instruction of `n` bytes has stand at its front, an operand it
lacks is 0 (R61, R82). -/
theorem takeOperands_ok {n : Nat} {bs rest : List Byte} {a b : Byte} (h : takeOperands n bs = .ok (a, b, rest)) :
    (if 1 < n then bs[0]? = some a else a = 0) ∧ (if 2 < n then bs[1]? = some b else b = 0) := by
  match n, bs, h with
  | 0, _, h | 1, _, h | 2, _ :: _, h | n + 3, _ :: _ :: _, h => cases h; simp
  | 2, [], h | n + 3, [], h | n + 3, [_], h => cases h

/-- An operand byte that the decoder takes from the window is the one the step fetches (R82). -/
theorem fetchOperand_of_window {s : State} {op : Byte} {bs : List Byte} (hwf : Memory.wf s.mem = true)
    (hw : s.window = op :: bs) {n k : Nat} {b : Byte} (hb : if k + 1 < n then bs[k]? = some b else b = 0) :
    fetchOperand n (k + 1) s = .ok b := by
  split at hb
  · have hbyte : s.byteAt (s.pc + (k + 1)) = some b := byteAt_of_window (by simpa [hw] using hb)
    exact fetchOperand_some ‹_› (State.byteAt_lt hwf hbyte) hbyte
  · exact hb ▸ fetchOperand_absent s ‹_›

/-- What the decoder read: the opcode's row, its operand bytes, and no register index above 7 (R64, R82). -/
theorem decode_ok {op : Byte} {bs rest : List Byte} {i : Instr} (h : decode (op :: bs) = .ok (i, rest)) :
    ∃ o a b, Opcode.ofByte op = some o ∧ takeOperands o.length bs = .ok (a, b, rest) ∧
      firstBadIndex o.format a b = none ∧ i = o.assemble a b := by
  simp only [decode] at h
  split at h
  · cases h
  · rename_i o ho
    split at h
    · cases h
    · rename_i a b rest' htake
      split at h
      · cases h
      · rename_i hbad
        cases h
        exact ⟨o, a, b, ho, htake, hbad, rfl⟩

/-- The decode stage answers what the decoder reads from the window (R82, R84). -/
theorem fetchInstr_of_decode {s : State} {op : Byte} {bs rest : List Byte} {i : Instr} (hwf : Memory.wf s.mem = true)
    (hw : s.window = op :: bs) (h : decode (op :: bs) = .ok (i, rest)) :
    op = i.opcode.byte ∧ fetchInstr op s = .ok i := by
  obtain ⟨o, a, b, ho, htake, hbad, rfl⟩ := decode_ok h
  obtain ⟨ha, hb⟩ := takeOperands_ok htake
  have hfetch1 : fetchOperand o.length 1 s = .ok a := fetchOperand_of_window hwf hw ha
  have hfetch2 : fetchOperand o.length 2 s = .ok b := fetchOperand_of_window hwf hw hb
  refine ⟨by rw [opcode_assemble, byte_of_ofByte ho], ?_⟩
  simp only [fetchInstr, ho, hfetch1, hfetch2, ok_bind, hbad]
  rfl

/-- Settles O7, by the decoder and the decode stage reading the same bytes. -/
theorem stepRunsDecodedInstruction : Obligations.StepRunsDecodedInstruction := by
  intro s i rest hrun hwf hdec
  cases hw : s.window with
  | nil => rw [hw] at hdec; cases hdec
  | cons op bs =>
    obtain ⟨rfl, hi⟩ := fetchInstr_of_decode hwf hw (hw ▸ hdec)
    have hop : s.byteAt s.pc = some i.opcode.byte := byteAt_of_window (k := 0) (by simp [hw])
    have hfetch := fetchOpcode_some (State.byteAt_lt hwf hop) hop
    exact step_of_fetchInstr_ok hrun hfetch ((fetchInstr_congr _ rfl rfl).trans hi)

/-! ### R7 is the stack pointer -/

/-- LDI of a register completes (R101). -/
theorem exec_ldi (r : Reg) (v : Byte) (s : State) :
    exec (.ldi (regByte r) v) s = .next (advancePc 3 (writeReg r v.toNat s)) := by
  simp only [exec_eq, effectOf, ldiEffect, regOperand_regByte, ok_bind]
  rfl

/-- PRN of a register that holds a value completes (R102). -/
theorem exec_prn_some {r : Reg} {v : Byte} {s : State} (hv : s.reg r = some v) :
    exec (.prn (regByte r)) s = .next (advancePc 2 (emit v s)) := by
  simp only [exec_eq, effectOf, prnEffect, regOperand_regByte, readReg_some hv, ok_bind]
  rfl

/-- Settles O47. -/
theorem spIsRegisterSeven : Obligations.SpIsRegisterSeven := by
  refine ⟨rfl, fun s t v hv hexec => ?_, fun s t slot hslot hexec => ?_⟩
  · rw [exec_ldi] at hexec
    cases hexec
    have hpos : 0 < v.toNat := Nat.pos_of_ne_zero fun h => hv (BitVec.eq_of_toNat_eq h)
    exact pushSlot_of_pos (by simp) hpos
  · obtain ⟨sp, hsp, hsucc⟩ := pushSlot_ok hslot
    rw [exec_prn_some hsp] at hexec
    cases hexec
    exact ⟨sp, rfl, hsucc⟩

end Sys2Proof.Machine
end

section
/-! SUPPORT. Memory: the address decoder's range and read after write (O44), and the fetch that follows a PUSH (O45). -/

namespace Sys2Proof.Machine

open Sys2Proof

/-! ### Read after write -/

/-- A write outside 0..255 raises OutOfRange, so that no state is written (R40, R43). -/
theorem memWrite_of_not {access : Access} {a : Int} (v : Byte) (s : State) (h : a < 0 ∨ 255 < a) :
    memWrite access a v s = .error (.outOfRange access a) := by
  simp only [memWrite, addressDecode_of_not h]

/-- A read outside 0..255 raises OutOfRange (R40, R42). -/
theorem memRead_of_not {access : Access} {a : Int} (s : State) (h : a < 0 ∨ 255 < a) :
    memRead access a s = .error (.outOfRange access a) := by
  simp only [memRead, addressDecode_of_not h]

/-- A read of a cell just stored finds the byte (R42, R43). -/
theorem memRead_storeByte (access : Access) {n : Nat} (v : Byte) (s : State) (h : n < 256) :
    memRead access (n : Int) (storeByte n v s) = .ok v := by
  rw [memRead_of_lt _ _ h, storeByte_byteAt, if_pos rfl]

/-- Settles O44, by the two ranges of the address decoder: an address it accepts is a natural number below 256. -/
theorem memoryReadsWhatWasWritten : Obligations.MemoryReadsWhatWasWritten := by
  intro access a v s
  refine ⟨fun hout => ⟨memWrite_of_not v s hout, memRead_of_not s hout⟩, fun hlow hhigh => ?_⟩
  obtain ⟨n, rfl⟩ := Int.eq_ofNat_of_zero_le hlow
  have hn : n < 256 := by omega
  refine ⟨storeByte n v s, memWrite_of_lt access v s hn, memRead_storeByte access v s hn, fun b hb => ?_, rfl⟩
  have hne : b ≠ n := fun h => hb (congrArg Nat.cast h)
  rw [storeByte_byteAt, if_neg hne]

/-! ### A store, then the next fetch -/

/-- The decode stage of an instruction with one register operand (R60, R64, R82). -/
theorem fetchInstr_of_regByte {o : Opcode} {r : Reg} {s : State} (ho : o.format = .r) (hpc : s.pc + 1 < 256)
    (hr : s.byteAt (s.pc + 1) = some (regByte r)) : fetchInstr o.byte s = .ok (o.assemble (regByte r) 0) := by
  have hlen : o.length = 2 := by rw [Opcode.length, ho]; rfl
  have hop1 : fetchOperand o.length 1 s = .ok (regByte r) := fetchOperand_some (by omega) hpc hr
  have hop2 : fetchOperand o.length 2 s = .ok 0 := fetchOperand_absent s (by omega)
  have hgood : firstBadIndex o.format (regByte r) 0 = none := by rw [ho]; exact if_pos (regIndexOk_regByte r)
  simp only [fetchInstr, ofByte_byte, hop1, hop2, ok_bind, hgood]
  rfl

/-- The step of an instruction with one register operand executes it, with its opcode in IR (R60, R84). -/
theorem step_of_regByte {o : Opcode} {r : Reg} {s : State} (ho : o.format = .r) (hrun : s.run = .running)
    (hop : s.byteAt s.pc = some o.byte) (hpc : s.pc + 1 < 256) (hr : s.byteAt (s.pc + 1) = some (regByte r)) :
    step s = exec (o.assemble (regByte r) 0) (setIr o.byte s) :=
  step_of_fetchInstr_ok hrun (fetchOpcode_some (by omega) hop) (fetchInstr_of_regByte ho hpc hr)

/-- The stack cell a PUSH or CALL stores to lies below 255 (R140). -/
theorem pushSlot_lt {s : State} {slot : Nat} (h : pushSlot s = .ok slot) : slot < 255 := by
  obtain ⟨sp, -, hsp⟩ := pushSlot_ok h
  have hlt := sp.isLt
  omega

/-- PUSH completes where SP is above 0 and its register holds a value (R141). -/
theorem exec_push_some {r : Reg} {slot : Nat} {v : Byte} {s : State} (hslot : pushSlot s = .ok slot)
    (hv : readAfterDecrement r slot s = .ok v) :
    exec (.push (regByte r)) s = .next (advancePc 2 (writeReg Config.spReg slot (storeByte slot v s))) := by
  have hlt : slot < 256 := Nat.lt_succ_of_lt (pushSlot_lt hslot)
  simp only [exec_eq, effectOf, pushEffect, regOperand_regByte, hslot, hv, memWrite_of_lt _ _ _ hlt, ok_bind]
  rfl

/-- Settles O45: the PUSH leaves pc at the cell it stored to, and a step leaves the byte it fetches in IR (O14). -/
theorem nextFetchSeesStore : Obligations.NextFetchSeesStore := by
  intro s t a slot v hrun hop hpc hr ha hv hslot hnext hstep u hstep'
  have hlt : slot < 255 := pushSlot_lt hslot
  have hread : readAfterDecrement a slot (setIr Opcode.push.byte s) = .ok v :=
    (readAfterDecrement_of_ne slot _ ha).trans (readReg_some hv)
  rw [step_of_regByte (o := .push) rfl hrun hop hpc hr] at hstep
  cases hstep.symm.trans (exec_push_some ((pushSlot_congr rfl).trans hslot) hread)
  refine (fetchWritesIr _ u hstep').1 v ?_ ?_
  · show s.pc + 2 < 256
    omega
  · simp [hnext]

end Sys2Proof.Machine
end

section
/-! SUPPORT. The encoding both ways: decode after encode (O1), the decoder accepts encodings only (O2), instruction lengths
(O4) and the opcode table (O3, O5, O6); what a step does with its operand bytes (O9, O15). -/

namespace Sys2Proof.Machine

open Sys2Proof

/-! ### Decode after encode -/

/-- The operand bytes of an instruction, taken from the front of a byte sequence, assemble to that instruction (R60, R62). -/
theorem takeOperands_operands (i : Instr) (rest : List Byte) :
    ∃ a b, takeOperands i.opcode.length (i.operands ++ rest) = .ok (a, b, rest) ∧ i.opcode.assemble a b = i := by
  cases i <;> exact ⟨_, _, rfl, rfl⟩

/-- The decoder answers the kind of the opcode byte, assembled from the operand bytes it takes (R62, R64, R65). -/
theorem decode_of_takeOperands {o : Opcode} {bs rest : List Byte} {a b : Byte}
    (htake : takeOperands o.length bs = .ok (a, b, rest)) (hwf : (o.assemble a b).wellFormed = true) :
    decode (o.byte :: bs) = .ok (o.assemble a b, rest) := by
  simp only [decode, ofByte_byte, htake, (firstBadIndex_none_iff o a b).2 hwf]

/-- Settles O1, by the operand bytes of the encoding being the ones the decoder takes. -/
theorem decodeOfEncode : Obligations.DecodeOfEncode := by
  intro i rest hwf
  obtain ⟨a, b, htake, hi⟩ := takeOperands_operands i rest
  have hdec := decode_of_takeOperands htake (hi.symm ▸ hwf)
  rwa [hi] at hdec

/-! ### Only encodings decode -/

/-- The operand bytes taken from a byte sequence, as many as the length leaves, stand at its front (R61, R82). -/
theorem eq_take_append_of_takeOperands {n : Nat} {bs rest : List Byte} {a b : Byte}
    (h : takeOperands n bs = .ok (a, b, rest)) : bs = [a, b].take (n - 1) ++ rest := by
  match n, bs, h with
  | 0, _, h | 1, _, h | 2, _ :: _, h | n + 3, _ :: _ :: _, h => cases h; simp
  | 2, [], h | n + 3, [], h | n + 3, [_], h => cases h

/-- Settles O2, by what the decoder read: an opcode byte of the table, then the operand bytes of its kind. -/
theorem decodeAcceptsOnlyEncodings : Obligations.DecodeAcceptsOnlyEncodings := by
  intro bs rest i h
  cases bs with
  | nil => cases h
  | cons op bs =>
    obtain ⟨o, a, b, ho, htake, hgood, rfl⟩ := decode_ok h
    refine ⟨(firstBadIndex_none_iff o a b).1 hgood, ?_⟩
    rw [encode, opcode_assemble, operands_assemble, byte_of_ofByte ho, List.cons_append,
      ← eq_take_append_of_takeOperands htake]

/-! ### Lengths -/

/-- The encoding of an instruction is as long as its kind says (R61). -/
theorem length_encode (i : Instr) : (encode i).length = i.opcode.length := by cases i <;> rfl

/-- The opcode bytes of each length (R61), and that no kind has another (R65). -/
theorem length_of_byte (o : Opcode) :
    (o.byte ∈ ([0x01, 0x11] : List Byte) → o.length = 1) ∧
    (o.byte ∈ ([0x47, 0x54, 0x55, 0x56, 0x45, 0x46, 0x50] : List Byte) → o.length = 2) ∧
    (o.byte ∈ ([0x82, 0xA2, 0xA0, 0xA3, 0xA8, 0xA7] : List Byte) → o.length = 3) ∧
    (o.byte ∈ ([0x01, 0x11] ++ [0x47, 0x54, 0x55, 0x56, 0x45, 0x46, 0x50] ++ [0x82, 0xA2, 0xA0, 0xA3, 0xA8, 0xA7] : List Byte)) := by
  cases o <;> decide

/-- Settles O4: the decoded bytes are an encoding (O2), whose length its opcode byte tells. -/
theorem lengthImpliedByOpcode : Obligations.LengthImpliedByOpcode := by
  intro op bs rest i h
  obtain ⟨-, hbytes⟩ := decodeAcceptsOnlyEncodings _ _ _ h
  obtain rfl : op = i.opcode.byte := (List.cons.inj hbytes).1
  have hlen : (i.opcode.byte :: bs).length = rest.length + i.opcode.length := by
    rw [hbytes, List.length_append, length_encode, Nat.add_comm]
  obtain ⟨hone, htwo, hthree, hmem⟩ := length_of_byte i.opcode
  exact ⟨fun hop => hone hop ▸ hlen, fun hop => htwo hop ▸ hlen, fun hop => hthree hop ▸ hlen, hmem⟩

/-! ### The opcode table -/

/-- A byte that is no row's opcode is not recognised (R66). -/
theorem ofByte_eq_none {op : Byte} (h : op ∉ Opcode.all.map Opcode.byte) : Opcode.ofByte op = none := by
  refine List.find?_eq_none.2 fun o ho hbyte => h ?_
  exact List.mem_map.2 ⟨o, ho, eq_of_beq hbyte⟩

/-- The decode stage raises UnknownInstruction on an opcode that is not recognised (R66). -/
theorem fetchInstr_of_ofByte_none {op : Byte} (h : Opcode.ofByte op = none) (s : State) :
    fetchInstr op s = .error (.unknownInstruction op) := by
  simp only [fetchInstr, h]

/-- An opcode and two bytes begin with the encoding of the instruction assembled from them (R60, R61). -/
theorem byte_cons_eq_encode_append (o : Opcode) (op1 op2 : Byte) (rest : List Byte) :
    o.byte :: op1 :: op2 :: rest = encode (o.assemble op1 op2) ++ ([op1, op2].drop (o.length - 1) ++ rest) := by
  rw [encode, opcode_assemble, operands_assemble, List.cons_append, ← List.append_assoc, List.take_append_drop]
  rfl

/-- The byte values in a list without repetitions are as many as the list is long: counted among 0..255 or read off the
list, they are the same numbers. -/
theorem length_filter_mem {l : List Byte} (h : l.Nodup) :
    ((List.range 256).filter (fun n => decide (BitVec.ofNat 8 n ∈ l))).length = l.length := by
  have hperm : ((List.range 256).filter (fun n => decide (BitVec.ofNat 8 n ∈ l))).Perm (l.map BitVec.toNat) := by
    refine (List.perm_ext_iff_of_nodup (List.nodup_range.filter _) (h.map BitVec.toNat_injective)).2 fun n => ?_
    simp only [List.mem_filter, List.mem_range, decide_eq_true_eq, List.mem_map]
    constructor
    · rintro ⟨hn, hmem⟩
      exact ⟨_, hmem, Nat.mod_eq_of_lt hn⟩
    · rintro ⟨op, hmem, rfl⟩
      exact ⟨op.isLt, by simpa using hmem⟩
  rw [hperm.length_eq, List.length_map]

/-- The byte values outside a list without repetitions are the rest of the 256. -/
theorem length_filter_not_mem {l : List Byte} (h : l.Nodup) :
    ((List.range 256).filter (fun n => decide (BitVec.ofNat 8 n ∉ l))).length = 256 - l.length := by
  have hsum := List.length_eq_length_filter_add (l := List.range 256) (fun n => decide (BitVec.ofNat 8 n ∈ l))
  rw [length_filter_mem h, List.length_range] at hsum
  simp only [decide_not]
  omega

/-- Settles O3. The bytes listed are those of `Opcode.all`, which is what the lookup searches. -/
theorem otherOpcodesAreIllegal : Obligations.OtherOpcodesAreIllegal := by
  unfold Obligations.OtherOpcodesAreIllegal
  intro table
  have htable : table = Opcode.all.map Opcode.byte := rfl
  refine ⟨fun op rest hop => ?_, fun op s hop hrun hpc hbyte => ?_,
    length_filter_not_mem (by decide), by decide, fun op hop => ?_⟩
  · simp only [decode, ofByte_eq_none (htable ▸ hop)]
  · exact step_of_fetchInstr_error hrun (fetchOpcode_some hpc hbyte)
      (fetchInstr_of_ofByte_none (ofByte_eq_none (htable ▸ hop)) _)
  · obtain ⟨o, -, rfl⟩ := List.mem_map.1 (htable ▸ hop)
    refine ⟨o, rfl, fun op1 op2 rest hwf => ⟨[op1, op2].drop (o.length - 1) ++ rest, ?_⟩⟩
    rw [byte_cons_eq_encode_append]
    exact decodeOfEncode _ _ hwf

/-- Settles O5, by running the decoder on the sixteen words. -/
theorem tableWordsDecode : Obligations.TableWordsDecode := by
  unfold Obligations.TableWordsDecode
  decide

/-- Settles O6, row by row of the table. -/
theorem opcodeBitPattern : Obligations.OpcodeBitPattern := by
  intro o
  refine ⟨(Laws.Encoding.operand_count o).symm, ?_, ?_⟩
  · cases o <;> decide -- bit 5
  · cases o <;> decide -- bit 4

/-! ### The operand bytes of a step -/

/-- An instruction has an op1 exactly where its format is not Z (R60, R61). -/
theorem one_lt_length_iff (o : Opcode) : 1 < o.length ↔ o.format ≠ .z := by
  rw [Opcode.length]
  cases o.format <;> decide

/-- An instruction has an op2 exactly where its format is RR or RI (R60, R61). -/
theorem two_lt_length_iff (o : Opcode) : 2 < o.length ↔ o.format = .rr ∨ o.format = .ri := by
  rw [Opcode.length]
  cases o.format <;> decide

/-- LDI is the one kind with an immediate (R63, R65). -/
theorem eq_ldi_of_format {o : Opcode} (h : o.format = .ri) : o = .ldi := by
  cases o with
  | ldi => rfl
  | _ => cases h

/-- An op1 above 7 is the first bad index of every format that has an op1 (R64). -/
theorem firstBadIndex_of_fst {f : Format} {a : Byte} (b : Byte) (hf : f ≠ .z) (ha : 8 ≤ a.toNat) :
    firstBadIndex f a b = some a := by
  have hbad : ¬ regIndexOk a = true := fun h => absurd (regIndexOk_iff.1 h) (by omega)
  cases f with
  | z => exact absurd rfl hf
  | r | ri | rr => exact if_neg hbad

/-- An op2 above 7 is the first bad index of format RR where op1 is an index (R64). -/
theorem firstBadIndex_of_snd {a b : Byte} (ha : a.toNat < 8) (hb : 8 ≤ b.toNat) : firstBadIndex .rr a b = some b := by
  have hbad : ¬ regIndexOk b = true := fun h => absurd (regIndexOk_iff.1 h) (by omega)
  exact (if_pos (regIndexOk_iff.2 ha)).trans (if_neg hbad)

section Operands

variable {s : State} {o : Opcode} {a b : Byte} (hrun : s.run = .running) (hop : fetchOpcode s = .ok o.byte)
  (hop1 : fetchOperand o.length 1 s = .ok a) (hop2 : fetchOperand o.length 2 s = .ok b)
include hrun hop hop1 hop2

/-- A step whose operand bytes are fetched raises OutOfRange on the first bad index (R64). -/
theorem step_raises_of_firstBadIndex {i : Byte} (hbad : firstBadIndex o.format a b = some i) :
    Raises (step s) (.outOfRange .registerIndex i.toNat) (setIr o.byte s) := by
  refine step_of_fetchInstr_error hrun hop ((fetchInstr_congr _ rfl rfl).trans (?_ : fetchInstr o.byte s = _))
  simp only [fetchInstr, ofByte_byte, hop1, hop2, ok_bind, hbad]

/-- A step whose operand bytes are fetched and good executes the instruction they assemble to (R62, R64, R84). -/
theorem step_of_operands (hwf : (o.assemble a b).wellFormed = true) :
    step s = exec (o.assemble a b) (setIr o.byte s) := by
  refine step_of_fetchInstr_ok hrun hop ((fetchInstr_congr _ rfl rfl).trans (?_ : fetchInstr o.byte s = _))
  simp only [fetchInstr, ofByte_byte, hop1, hop2, ok_bind, (firstBadIndex_none_iff o a b).2 hwf]
  rfl

end Operands

/-- Settles O9: op1 is fetched in every format but Z, and op2 in RR and RI. -/
theorem stepChecksRegisterIndices : Obligations.StepChecksRegisterIndices := by
  intro s o op1 op2 hrun hmem hbyte hbyte1 hbyte2
  have hop : fetchOpcode s = .ok o.byte := fetchOpcode_some (State.byteAt_lt hmem hbyte) hbyte
  have hop1 (hf : o.format ≠ .z) : fetchOperand o.length 1 s = .ok op1 :=
    fetchOperand_some ((one_lt_length_iff o).2 hf) (State.byteAt_lt hmem hbyte1) hbyte1
  have hop2 (hf : o.format = .rr ∨ o.format = .ri) : fetchOperand o.length 2 s = .ok op2 :=
    fetchOperand_some ((two_lt_length_iff o).2 hf) (State.byteAt_lt hmem (hbyte2 hf)) (hbyte2 hf)
  refine ⟨fun hf hbad => ?_, fun hf hgood hbad => ?_, fun hf hgood => ?_⟩
  · obtain ⟨b, hb⟩ : ∃ b, fetchOperand o.length 2 s = .ok b := by
      by_cases hlen : 2 < o.length
      · exact ⟨op2, hop2 ((two_lt_length_iff o).1 hlen)⟩
      · exact ⟨0, fetchOperand_absent s hlen⟩
    exact step_raises_of_firstBadIndex hrun hop (hop1 hf) hb (firstBadIndex_of_fst b hf hbad)
  · exact step_raises_of_firstBadIndex hrun hop (hop1 (by simp [hf])) (hop2 (.inl hf))
      (hf ▸ firstBadIndex_of_snd hgood hbad)
  · obtain rfl := eq_ldi_of_format hf
    exact step_of_operands hrun hop (hop1 nofun) (hop2 (.inr rfl)) (regIndexOk_iff.2 hgood)

/-- The step of an instruction of three bytes executes it on the bytes at pc + 1 and pc + 2 (R61, R62, R84). -/
theorem step_of_three_bytes {s : State} {o : Opcode} {a b : Byte} (hlen : 2 < o.length) (hrun : s.run = .running)
    (hpc : s.pc + 2 < 256) (hop : s.byteAt s.pc = some o.byte) (ha : s.byteAt (s.pc + 1) = some a)
    (hb : s.byteAt (s.pc + 2) = some b) (hwf : (o.assemble a b).wellFormed = true) :
    step s = exec (o.assemble a b) (setIr o.byte s) :=
  step_of_operands hrun (fetchOpcode_some (by omega) hop) (fetchOperand_some (by omega) (by omega) ha)
    (fetchOperand_some hlen hpc hb) hwf

/-- ADD completes where both registers hold a value (R111). -/
theorem exec_add_some {a b : Reg} {x y : Byte} {s : State} (hx : s.reg a = some x) (hy : s.reg b = some y) :
    exec (.add (regByte a) (regByte b)) s = .next (advancePc 3 (writeReg a (x.toNat + y.toNat) s)) := by
  simp only [exec_eq, effectOf, aluEffect_some addValue hx hy, addValue]
  rfl

/-- Settles O15, by the step of three bytes and the completions of LDI and ADD. -/
theorem operandBytesAreUsedWhole : Obligations.OperandBytesAreUsedWhole := by
  intro s a hrun hpc ha
  refine ⟨fun v hop hv => ?_, fun b x y hop hb hx hy => ?_⟩
  · have hstep := step_of_three_bytes (o := .ldi) (by decide) hrun hpc hop ha hv (regIndexOk_regByte a)
    refine ⟨_, BitVec.ofNat 8 v.toNat, hstep.trans (exec_ldi a v _), by simp, by simp, rfl, hrun⟩
  · have hstep := step_of_three_bytes (o := .add) (by decide) hrun hpc hop ha hb
      (Bool.and_eq_true_iff.2 ⟨regIndexOk_regByte a, regIndexOk_regByte b⟩)
    refine ⟨_, BitVec.ofNat 8 (x.toNat + y.toNat), hstep.trans (exec_add_some hx hy), by simp, by simp, rfl, hrun⟩

end Sys2Proof.Machine
end

section
/-! SUPPORT. The frame of an instruction, one rule per state update, and the instructions HLT (O16), LDI (O17) and
PRN (O18). -/

namespace Sys2Proof.Machine

open Sys2Proof

/-! ### Frames -/

section Frame

variable {dests : List Reg} {slots : List Nat} {s t : State}

/-- A state frames itself. -/
theorem Frame.refl (dests : List Reg) (slots : List Nat) (s : State) : Frame dests slots s s where
  regs _ _ := rfl
  mem _ _ := rfl
  ir := rfl

/-- Writing one of the destination registers keeps a frame (R21). -/
theorem Frame.writeReg (h : Frame dests slots s t) {r : Reg} (hr : r ∈ dests) (v : Nat) :
    Frame dests slots s (writeReg r v t) where
  regs q hq := by
    have hne : r ≠ q := fun heq => hq (heq ▸ hr)
    rw [writeReg_reg, if_neg hne, h.regs q hq]
  mem := h.mem
  ir := h.ir

/-- A change of neither registers, memory nor IR keeps a frame. -/
theorem Frame.congr (h : Frame dests slots s t) {u : State} (hregs : u.regs = t.regs) (hmem : u.mem = t.mem)
    (hir : u.ir = t.ir) : Frame dests slots s u where
  regs q hq := (congrArg (·.get q) hregs).trans (h.regs q hq)
  mem a ha := (congrArg (Memory.cell · a) hmem).trans (h.mem a ha)
  ir := hir.trans h.ir

end Frame

/-! ### Halt, load immediate and output -/

/-- Settles O16: only the run state changes, and a halted state has no step. -/
theorem hltHalts : Obligations.HltHalts := by
  refine ⟨rfl, fun s => ⟨halt s, exec_eq .hlt s, halt_run s, ?_, rfl, rfl, rfl, ?_⟩⟩
  · exact (Frame.refl [] [] s).congr rfl rfl rfl
  · simp only [step, halt_run]

/-- LDI of a register operand above 7 raises OutOfRange with the index (R64, log 8). -/
theorem exec_ldi_of_ge {a : Byte} (ha : 8 ≤ a.toNat) (v : Byte) (s : State) :
    Raises (exec (.ldi a v) s) (.outOfRange .registerIndex a.toNat) s := by
  simp only [Raises, exec_eq, effectOf, ldiEffect, regOperand_of_ge ha, error_bind, commit_error]

/-- Settles O17, by LDI's completion: the register holds the immediate modulo 256, which is the immediate itself. -/
theorem ldiLoadsImmediate : Obligations.LdiLoadsImmediate := by
  refine ⟨fun _ _ => rfl, fun s a v => ?_, fun s a v ha => exec_ldi_of_ge ha v s⟩
  refine ⟨_, exec_ldi a v s, by simp, ?_, rfl, rfl, rfl, rfl⟩
  exact ((Frame.refl [a] [] s).writeReg (List.mem_singleton_self a) v.toNat).congr rfl rfl rfl

/-- PRN of a register that holds no value raises UninitialisedRegister (R23, R102). -/
theorem exec_prn_none {r : Reg} {s : State} (hr : s.reg r = none) :
    Raises (exec (.prn (regByte r)) s) (.uninitialisedRegister r) s := by
  simp only [Raises, exec_eq, effectOf, prnEffect, regOperand_regByte, readReg_none hr, ok_bind, error_bind, commit_error]

/-- Settles O18, by whether the register holds a value. -/
theorem prnEmitsRegister : Obligations.PrnEmitsRegister := by
  refine ⟨fun _ => rfl, fun s a => ⟨fun v hv => ?_, exec_prn_none⟩⟩
  refine ⟨_, exec_prn_some hv, rfl, ?_, rfl, rfl, rfl⟩
  exact (Frame.refl [] [] s).congr rfl rfl rfl

end Sys2Proof.Machine
end

section
/-! SUPPORT. The ALU instructions: the rules MULT, ADD, DIV and AND share, stated over an instruction whose effect is a
value operation (O19 to O22), CMP (O23), the low eight bits (O31) and floor division (O32). -/

namespace Sys2Proof.Machine

open Sys2Proof

/-! ### What the instructions of format RR share -/

section Alu

variable {s : State} {i : Instr} {a b : Reg} {x y : Byte}

/-- An instruction that begins by reading its two register operands raises what that reading raises (R163). -/
theorem exec_raises_of_aluOperands_error {e : FatalError} {rest : Reg × Reg × Byte × Byte → Except FatalError State}
    (heff : effectOf i s = aluOperands (regByte a) (regByte b) s >>= rest)
    (herr : aluOperands (regByte a) (regByte b) s = .error e) : Raises (exec i s) e s := by
  simp only [Raises, exec_eq, heff, herr, error_bind, commit_error]

/-- An instruction that begins by reading its two register operands raises UninitialisedRegister on one that holds no
value, the first before the second (R23, 41_alu.md). -/
theorem exec_raises_unwritten_operand {rest : Reg × Reg × Byte × Byte → Except FatalError State}
    (heff : effectOf i s = aluOperands (regByte a) (regByte b) s >>= rest) :
    (s.reg a = none → Raises (exec i s) (.uninitialisedRegister a) s) ∧
      ((s.reg a).isSome = true → s.reg b = none → Raises (exec i s) (.uninitialisedRegister b) s) := by
  refine ⟨fun ha => exec_raises_of_aluOperands_error heff (aluOperands_fst_none b ha), fun ha hb => ?_⟩
  obtain ⟨x, hx⟩ := Option.isSome_iff_exists.1 ha
  exact exec_raises_of_aluOperands_error heff (aluOperands_snd_none hx hb)

section Value

variable {f : Reg → Byte → Byte → Except FatalError Nat}
  (heff : effectOf i s = aluEffect f (regByte a) (regByte b) s) (hx : s.reg a = some x) (hy : s.reg b = some y)
include heff hx hy

/-- A value operation that raises takes its fatal error (R112, R163). -/
theorem exec_raises_of_value_error {e : FatalError} (hf : f b x y = .error e) : Raises (exec i s) e s := by
  simp only [Raises, exec_eq, heff, aluEffect_some f hx hy, hf, commit_error]

/-- A value operation writes its value's low eight bits to its first register and advances pc by 3; everything else is
as before (R115). What is known of those eight bits is known of the register. -/
theorem exec_writes_value {v : Nat} (hf : f b x y = .ok v) {P : Byte → Prop} (hP : P (BitVec.ofNat 8 v)) :
    ∃ t, exec i s = .next t ∧ (∃ p, t.reg a = some p ∧ P p) ∧
      Frame [a] [] s t ∧ t.pc = s.pc + 3 ∧ t.eqFlag = s.eqFlag ∧ t.run = s.run ∧ t.output = s.output := by
  have hexec : exec i s = .next (advancePc 3 (writeReg a v s)) := by
    simp only [exec_eq, heff, aluEffect_some f hx hy, hf, commit_ok]
  refine ⟨_, hexec, ⟨_, by simp, hP⟩, ?_, rfl, rfl, rfl, rfl⟩
  exact ((Frame.refl [a] [] s).writeReg (List.mem_singleton_self a) v).congr rfl rfl rfl

end Value

end Alu

/-! ### MULT, ADD and the low eight bits -/

/-- Settles O19. -/
theorem multWrapsModulo256 : Obligations.MultWrapsModulo256 := by
  refine ⟨fun _ _ => rfl, fun s a b => ⟨fun x y hx hy => ?_, exec_raises_unwritten_operand rfl⟩⟩
  exact exec_writes_value rfl hx hy rfl (BitVec.toNat_ofNat (x.toNat * y.toNat) 8)

/-- Settles O20. -/
theorem addWrapsModulo256 : Obligations.AddWrapsModulo256 := by
  refine ⟨fun _ _ => rfl, fun s a b => ⟨fun x y hx hy => ?_, exec_raises_unwritten_operand rfl⟩⟩
  exact exec_writes_value rfl hx hy rfl (BitVec.toNat_ofNat (x.toNat + y.toNat) 8)

/-- Settles O31, from O20 and O19: the exact result is 256 times its quotient by 256, and the remainder they write. -/
theorem addAndMultKeepLowEightBits : Obligations.AddAndMultKeepLowEightBits := by
  intro s a b x y hx hy
  constructor
  · obtain ⟨t, hexec, ⟨p, hp, hval⟩, hrest⟩ := (addWrapsModulo256.2 s a b).1 x y hx hy
    refine ⟨t, (x.toNat + y.toNat) / 256, hexec, ⟨p, hp, ?_⟩, hrest⟩
    rw [hval, Nat.div_add_mod]
  · obtain ⟨t, hexec, ⟨p, hp, hval⟩, hrest⟩ := (multWrapsModulo256.2 s a b).1 x y hx hy
    refine ⟨t, (x.toNat * y.toNat) / 256, hexec, ⟨p, hp, ?_⟩, hrest⟩
    rw [hval, Nat.div_add_mod]

/-! ### DIV -/

/-- DIV with a divisor that is not zero has the floor quotient as its value (R112). -/
theorem divValue_of_ne {rb : Reg} {x y : Byte} (h : y ≠ 0) : divValue rb x y = .ok (x.toNat / y.toNat) :=
  if_neg fun h0 => h (BitVec.eq_of_toNat_eq h0)

/-- The quotient of two bytes fits a byte (R116: it "never wraps"). -/
theorem toNat_ofNat_div (x y : Byte) : (BitVec.ofNat 8 (x.toNat / y.toNat)).toNat = x.toNat / y.toNat :=
  Nat.mod_eq_of_lt ((Nat.div_le_self _ _).trans_lt x.isLt)

/-- DIV by zero raises DivisionByZero with the divisor register (R112). -/
theorem exec_div_zero {s : State} {a b : Reg} {x : Byte} (hx : s.reg a = some x) (hy : s.reg b = some 0) :
    Raises (exec (.div (regByte a) (regByte b)) s) (.divisionByZero b) s :=
  exec_raises_of_value_error rfl hx hy rfl

/-- Settles O21. -/
theorem divWritesFloorQuotient : Obligations.DivWritesFloorQuotient := by
  refine ⟨fun _ _ => rfl, fun s a b => ?_⟩
  obtain ⟨hfst, hsnd⟩ := exec_raises_unwritten_operand (s := s) (i := .div (regByte a) (regByte b)) rfl
  refine ⟨fun x y hx hy h0 => ?_, hfst, hsnd, fun ha hb => ?_⟩
  · exact exec_writes_value rfl hx hy (divValue_of_ne h0) (toNat_ofNat_div x y)
  · obtain ⟨x, hx⟩ := Option.isSome_iff_exists.1 ha
    exact exec_div_zero hx hb

/-- Settles O32, from the floor quotient DIV writes (O21). -/
theorem divIsFloorDivision : Obligations.DivIsFloorDivision := by
  intro s a b n d hn hd
  refine ⟨fun hpos => ?_, fun h0 => ?_⟩
  · have hne : d ≠ 0 := fun h => by simp [h] at hpos
    obtain ⟨t, hexec, ⟨q, hq, hval⟩, -⟩ := (divWritesFloorQuotient.2 s a b).1 n d hn hd hne
    refine ⟨t, q, hexec, hq, ?_⟩
    have hupper : n.toNat < (n.toNat / d.toNat + 1) * d.toNat := by
      rw [Nat.add_one_mul]
      exact Nat.lt_div_mul_add hpos
    rw [hval]
    exact ⟨Nat.div_mul_le_self _ _, hupper, Nat.div_le_self _ _, fun q' hle hlt => (Nat.div_eq_of_lt_le hle hlt).symm⟩
  · obtain rfl : d = 0 := BitVec.eq_of_toNat_eq h0
    exact exec_div_zero hn hd

/-! ### AND and CMP -/

/-- Settles O22. -/
theorem andWritesBitwiseAnd : Obligations.AndWritesBitwiseAnd := by
  refine ⟨fun _ _ => rfl, fun s a b => ⟨fun x y hx hy => ?_, exec_raises_unwritten_operand rfl⟩⟩
  refine exec_writes_value rfl hx hy rfl fun n => ?_
  rw [BitVec.ofNat_toNat, BitVec.setWidth_eq, BitVec.getLsbD_and]

/-- CMP's flag is true exactly on equal values (R26, R114). -/
theorem equalityFlag_iff (x y : Byte) : equalityFlag x y = true ↔ x.toNat = y.toNat :=
  decide_eq_true_iff.trans BitVec.toNat_inj.symm

/-- Settles O23, by CMP's completion. -/
theorem cmpWritesEquality : Obligations.CmpWritesEquality := by
  refine ⟨fun _ _ => rfl, fun s a b => ⟨fun x y hx hy => ?_, exec_raises_unwritten_operand rfl⟩⟩
  refine ⟨_, exec_cmp_some hx hy, equalityFlag_iff x y, ?_, rfl, rfl, rfl⟩
  exact (Frame.refl [] [] s).congr rfl rfl rfl

end Sys2Proof.Machine
end

section
/-! SUPPORT. The register-indirect jumps JMP (O24), JEQ (O25) and JNE (O26): the rules they share, stated over an
instruction whose effect is a jump, taken or not. -/

namespace Sys2Proof.Machine

open Sys2Proof

section Jump

variable {s : State} {i : Instr} {taken : Bool} {a : Reg}

/-- An instruction whose effect is to set pc changes nothing else. -/
theorem exec_sets_pc {n : Nat} (heff : effectOf i s = .ok (setPc n s)) :
    ∃ t, exec i s = .next t ∧ t.pc = n ∧
      Frame [] [] s t ∧ t.eqFlag = s.eqFlag ∧ t.run = s.run ∧ t.output = s.output := by
  have hexec : exec i s = .next (setPc n s) := by rw [exec_eq, heff, commit_ok]
  exact ⟨_, hexec, rfl, (Frame.refl [] [] s).congr rfl rfl rfl, rfl, rfl, rfl⟩

variable (heff : effectOf i s = jumpEffect taken (regByte a) s)
include heff

/-- A jump taken on a register that holds a value goes to that value, unchecked (R130, R133). -/
theorem exec_jump_taken {v : Byte} (htaken : taken = true) (hv : s.reg a = some v) :
    ∃ t, exec i s = .next t ∧ t.pc = v.toNat ∧
      Frame [] [] s t ∧ t.eqFlag = s.eqFlag ∧ t.run = s.run ∧ t.output = s.output := by
  refine exec_sets_pc (heff.trans ?_)
  simp only [jumpEffect, regOperand_regByte, ok_bind, htaken, if_true, readReg_some hv]
  rfl

/-- A jump not taken advances pc by 2, whatever its register holds (R131, R132, decision D22). -/
theorem exec_jump_not_taken (hnot : taken = false) :
    ∃ t, exec i s = .next t ∧ t.pc = s.pc + 2 ∧
      Frame [] [] s t ∧ t.eqFlag = s.eqFlag ∧ t.run = s.run ∧ t.output = s.output := by
  refine exec_sets_pc (heff.trans ?_)
  simp only [jumpEffect, regOperand_regByte, ok_bind, hnot, Bool.false_eq_true, if_false]
  rfl

/-- A jump taken on a register that holds no value raises UninitialisedRegister (decision D2). -/
theorem exec_jump_unwritten (htaken : taken = true) (hr : s.reg a = none) :
    Raises (exec i s) (.uninitialisedRegister a) s := by
  simp only [Raises, exec_eq, heff, jumpEffect, regOperand_regByte, ok_bind, htaken, if_true, readReg_none hr, error_bind,
    commit_error]

end Jump

/-- Settles O24: JMP is the jump that is always taken. -/
theorem jmpSetsPc : Obligations.JmpSetsPc :=
  ⟨fun _ => rfl, fun _ _ => ⟨fun _ hv => exec_jump_taken rfl rfl hv, exec_jump_unwritten rfl rfl⟩⟩

/-- Settles O25: JEQ is the jump taken when EQ is true. -/
theorem jeqJumpsWhenEqual : Obligations.JeqJumpsWhenEqual :=
  ⟨fun _ => rfl, fun _ _ =>
    ⟨fun _ heq hv => exec_jump_taken rfl heq hv, exec_jump_not_taken rfl, exec_jump_unwritten rfl⟩⟩

/-- Settles O26: JNE is the jump taken when the complement of EQ is true. -/
theorem jneJumpsWhenNotEqual : Obligations.JneJumpsWhenNotEqual := by
  refine ⟨fun _ => rfl, fun s a => ⟨fun v hne hv => ?_, fun heq => ?_, fun hne hr => ?_⟩⟩
  · exact exec_jump_taken rfl (congrArg not hne) hv
  · exact exec_jump_not_taken rfl (congrArg not heq)
  · exact exec_jump_unwritten rfl (congrArg not hne) hr

end Sys2Proof.Machine
end

section
/-! SUPPORT. The stack instructions PUSH (O27), POP (O28), CALL (O29) and RET (O30): what the two that push share and what
the two that pop share; the stack pointer's range (O41); CALL then RET (O42) and PUSH then POP (O43). -/

namespace Sys2Proof.Machine

open Sys2Proof

/-! ### The operations of the stack -/

/-- An instruction whose effect raises takes its fatal error (R163). -/
theorem exec_raises_of_effectOf_error {i : Instr} {s : State} {e : FatalError} (heff : effectOf i s = .error e) :
    Raises (exec i s) e s := by
  simp only [Raises, exec_eq, heff, commit_error]

/-- An instruction that ends in RUNNING raised nothing (R163). -/
theorem effectOf_ok_of_running {i : Instr} {s t : State} (h : exec i s = .next t) (hrun : t.run = .running) :
    effectOf i s = .ok t := by
  rcases exec_cases h with hok | ⟨e, -, rfl⟩
  · exact hok
  · cases hrun

/-- A read of a cell 0..255 that holds no value raises UninitialisedMemory (R42). -/
theorem memRead_none {access : Access} {n : Nat} {s : State} (hn : n < 256) (h : s.byteAt n = none) :
    memRead access (n : Int) s = .error (.uninitialisedMemory n) := by
  simp only [memRead_of_lt access s hn, h]

/-- A read of a cell 0..255 that holds a byte (R42). -/
theorem memRead_some {access : Access} {n : Nat} {s : State} {v : Byte} (hn : n < 256) (h : s.byteAt n = some v) :
    memRead access (n : Int) s = .ok v := by
  simp only [memRead_of_lt access s hn, h]

/-- The register operand of a PUSH or CALL is the decremented SP for R7, the register's value for any other (R140). -/
theorem readAfterDecrement_ok {r : Reg} {slot : Nat} {s : State} {v : Byte} :
    readAfterDecrement r slot s = .ok v ↔ (if r = 7 then some (BitVec.ofNat 8 slot) else s.reg r) = some v := by
  by_cases hr : r = 7
  · subst hr
    rw [readAfterDecrement_sp, if_pos rfl, Except.ok.injEq, Option.some.injEq]
  · rw [readAfterDecrement_of_ne _ _ hr, readReg_ok, if_neg hr]

/-- The register operand of a PUSH or CALL, other than R7, that holds no value (R23, R141). -/
theorem readAfterDecrement_none {r : Reg} {s : State} (slot : Nat) (hr : r ≠ 7) (h : s.reg r = none) :
    readAfterDecrement r slot s = .error (.uninitialisedRegister r) :=
  (readAfterDecrement_of_ne slot s hr).trans (readReg_none h)

/-- The register operand of a PUSH or CALL is read where its register holds a value (R140). -/
theorem readAfterDecrement_of_isSome {r : Reg} {s : State} (slot : Nat) (h : (s.reg r).isSome = true) :
    ∃ v, readAfterDecrement r slot s = .ok v := by
  obtain ⟨x, hx⟩ := Option.isSome_iff_exists.1 h
  by_cases hr : r = 7
  · subst hr
    exact ⟨_, readAfterDecrement_sp slot s⟩
  · exact ⟨x, (readAfterDecrement_of_ne slot s hr).trans (readReg_some hx)⟩

/-- The stack cell a PUSH or CALL stores to exists where SP is not 0 (R140). -/
theorem pushSlot_of_ne_zero {s : State} {sp : Byte} (hsp : s.reg 7 = some sp) (h0 : sp ≠ 0) :
    pushSlot s = .ok (sp.toNat - 1) :=
  pushSlot_of_pos hsp (Nat.pos_of_ne_zero fun h => h0 (BitVec.eq_of_toNat_eq h))

/-- The stack cell a PUSH or CALL stores to is the one just below SP (R140). -/
theorem pushSlot_succ {s : State} {slot : Nat} {sp : Byte} (hslot : pushSlot s = .ok slot) (hsp : s.reg 7 = some sp) :
    slot + 1 = sp.toNat := by
  obtain ⟨sp', hsp', hsucc⟩ := pushSlot_ok hslot
  cases hsp.symm.trans hsp'
  exact hsucc.symm

/-- The decremented SP fits a byte (R140). -/
theorem toNat_ofNat_pushSlot {s : State} {slot : Nat} (hslot : pushSlot s = .ok slot) :
    (BitVec.ofNat 8 slot).toNat = slot :=
  Nat.mod_eq_of_lt (Nat.lt_succ_of_lt (pushSlot_lt hslot))

/-- An incremented SP below 256 fits a byte (R140). -/
theorem toNat_ofNat_succ {b : Byte} (h : b.toNat < 255) : (BitVec.ofNat 8 (b.toNat + 1)).toNat = b.toNat + 1 :=
  Nat.mod_eq_of_lt (Nat.succ_lt_succ h)

/-- A byte other than 255 is below it. -/
theorem toNat_lt_255 {b : Byte} (h : b ≠ 255) : b.toNat < 255 := by
  have hlt := b.isLt
  have hne : b.toNat ≠ 255 := fun heq => h (BitVec.eq_of_toNat_eq heq)
  omega

/-- Storing a byte to one of the cells keeps a frame (R43). -/
theorem Frame.storeByte {dests : List Reg} {slots : List Nat} {s t : State} (h : Frame dests slots s t) {n : Nat}
    (hn : n ∈ slots) (v : Byte) : Frame dests slots s (storeByte n v t) where
  regs := h.regs
  mem a ha := by
    have hne : a ≠ n := fun heq => ha (heq ▸ hn)
    rw [storeByte_byteAt, if_neg hne, h.mem a ha]
  ir := h.ir

/-- A byte stored to a cell, with SP left there, is framed by SP and that cell (R140). -/
theorem frame_pushed (slot : Nat) (v : Byte) (s : State) :
    Frame [7] [slot] s (writeReg Config.spReg slot (storeByte slot v s)) :=
  ((Frame.refl [7] [slot] s).storeByte (List.mem_singleton_self slot) v).writeReg (List.mem_singleton_self 7) slot

/-! ### PUSH and CALL -/

section Push

variable {s : State} {r : Reg} {slot : Nat}

/-- An instruction that begins with its register operand and the stack address raises OutOfRange with -1 where SP is 0
(R145 a). -/
theorem exec_raises_sp_zero {i : Instr} {rest : Reg → Nat → Except FatalError State}
    (heff : effectOf i s = regOperand (regByte r) >>= fun r => pushSlot s >>= rest r) (h0 : s.reg 7 = some 0) :
    Raises (exec i s) (.outOfRange .stackAddress (-1)) s := by
  refine exec_raises_of_effectOf_error ?_
  rw [heff, regOperand_regByte, ok_bind, pushSlot_of_zero h0, error_bind]

/-- PUSH raises what the read of its register raises, after SP is decremented (R141, R163). -/
theorem exec_push_of_read_error {e : FatalError} (hslot : pushSlot s = .ok slot)
    (hread : readAfterDecrement r slot s = .error e) : Raises (exec (.push (regByte r)) s) e s := by
  refine exec_raises_of_effectOf_error ?_
  simp only [effectOf, pushEffect, regOperand_regByte, hslot, hread, ok_bind, error_bind]

/-- CALL completes where SP is above 0, the return address fits and its register holds a value (R143). -/
theorem exec_call_some {target : Byte} (hslot : pushSlot s = .ok slot) (hpc : s.pc + 2 < 256)
    (htarget : readAfterDecrement r slot s = .ok target) :
    exec (.call (regByte r)) s =
      .next (setPc target.toNat (writeReg Config.spReg slot (storeByte slot (BitVec.ofNat 8 (s.pc + 2)) s))) := by
  have hlt : slot < 256 := Nat.lt_succ_of_lt (pushSlot_lt hslot)
  simp only [exec_eq, effectOf, callEffect, regOperand_regByte, hslot, returnAddress_of_lt hpc, htarget,
    memWrite_of_lt _ _ _ hlt, ok_bind]
  rfl

/-- CALL raises OutOfRange with a return address above 255, whatever its register holds (R145 c, decision D13). -/
theorem exec_call_of_return_ge (hslot : pushSlot s = .ok slot) (hpc : 256 ≤ s.pc + 2) :
    Raises (exec (.call (regByte r)) s) (.outOfRange .returnAddress (s.pc + 2 : Nat)) s := by
  refine exec_raises_of_effectOf_error ?_
  simp only [effectOf, callEffect, regOperand_regByte, hslot, returnAddress_of_ge hpc, ok_bind, error_bind]

/-- CALL raises what the read of its register raises, after the return address (R143, R163, decision D13). -/
theorem exec_call_of_read_error {e : FatalError} (hslot : pushSlot s = .ok slot) (hpc : s.pc + 2 < 256)
    (hread : readAfterDecrement r slot s = .error e) : Raises (exec (.call (regByte r)) s) e s := by
  refine exec_raises_of_effectOf_error ?_
  simp only [effectOf, callEffect, regOperand_regByte, hslot, returnAddress_of_lt hpc, hread, ok_bind, error_bind]

end Push

/-- Settles O27: the stack address, then the read of the register, each raises or the PUSH completes. -/
theorem pushStoresBelowSp : Obligations.PushStoresBelowSp := by
  refine ⟨fun _ => rfl, fun s a sp hsp => ⟨fun slot v hslot hv => ?_, fun h0 => ?_, fun h0 => ?_, fun h0 ha hnone => ?_⟩⟩
  · refine ⟨pushSlot_succ hslot hsp, _, exec_push_some hslot (readAfterDecrement_ok.2 hv), by simp, by simp, ?_, rfl, rfl,
      rfl, rfl⟩
    exact (frame_pushed slot v s).congr rfl rfl rfl
  · exact ⟨_, pushSlot_of_ne_zero hsp h0⟩
  · exact exec_raises_sp_zero rfl (h0 ▸ hsp)
  · exact exec_push_of_read_error (pushSlot_of_ne_zero hsp h0) (readAfterDecrement_none _ ha hnone)

/-- Settles O29: the errors in the order stack address, return address, register (decision D13). -/
theorem callPushesReturnAddress : Obligations.CallPushesReturnAddress := by
  refine ⟨fun _ => rfl, fun s a sp hsp => ⟨fun slot v hslot hpc hv => ?_, fun h0 => ?_, fun h0 => ?_, fun h0 hpc => ?_,
    fun h0 hpc ha hnone => ?_⟩⟩
  · have hret : (BitVec.ofNat 8 (s.pc + 2)).toNat = s.pc + 2 := Nat.mod_eq_of_lt hpc
    refine ⟨pushSlot_succ hslot hsp, _, exec_call_some hslot hpc (readAfterDecrement_ok.2 hv), ⟨_, by simp, hret⟩, by simp,
      rfl, ?_, rfl, rfl, rfl⟩
    exact (frame_pushed slot _ s).congr rfl rfl rfl
  · exact ⟨_, pushSlot_of_ne_zero hsp h0⟩
  · exact exec_raises_sp_zero rfl (h0 ▸ hsp)
  · exact exec_call_of_return_ge (pushSlot_of_ne_zero hsp h0) hpc
  · exact exec_call_of_read_error (pushSlot_of_ne_zero hsp h0) hpc (readAfterDecrement_none _ ha hnone)

/-! ### POP and RET -/

section Pop

variable {s : State} {i : Instr} {r : Reg} {sp v : Byte}

/-- POP reads SP, then the cell it addresses, then increments what R7 holds by then (R142). -/
theorem popEffect_regByte (r : Reg) (s : State) :
    popEffect (regByte r) s = readReg Config.spReg s >>= fun sp => memRead .stackAddress sp.toNat s >>= fun v =>
      incrementedSp (if r = Config.spReg then v else sp) >>= fun sp2 =>
        .ok (advancePc 2 (writeReg Config.spReg sp2 (writeReg r v.toNat s))) := by
  simp only [popEffect, regOperand_regByte, ok_bind]
  rfl

/-- RET reads SP, then the cell it addresses, then increments SP (R144). -/
theorem retEffect_eq (s : State) :
    retEffect s = readReg Config.spReg s >>= fun sp => memRead .stackAddress sp.toNat s >>= fun target =>
      incrementedSp sp >>= fun sp2 => .ok (setPc target.toNat (writeReg Config.spReg sp2 s)) := rfl

/-- An instruction that begins by reading the cell SP addresses raises UninitialisedMemory where it holds no value
(R42, R142, R144). -/
theorem exec_raises_unwritten_cell {rest : Byte → Byte → Except FatalError State}
    (heff : effectOf i s = readReg Config.spReg s >>= fun sp => memRead .stackAddress sp.toNat s >>= rest sp)
    (hsp : s.reg 7 = some sp) (hnone : s.byteAt sp.toNat = none) :
    Raises (exec i s) (.uninitialisedMemory sp.toNat) s := by
  refine exec_raises_of_effectOf_error ?_
  rw [heff, readReg_some hsp, ok_bind, memRead_none sp.isLt hnone, error_bind]

/-- An instruction that pops, then increments what SP is by then, raises OutOfRange with 256 where that is 255 (R145 b). -/
theorem exec_raises_sp_top {base : Byte → Byte → Byte} {rest : Byte → Byte → Nat → Except FatalError State}
    (heff : effectOf i s = readReg Config.spReg s >>= fun sp => memRead .stackAddress sp.toNat s >>= fun v =>
      incrementedSp (base sp v) >>= rest sp v)
    (hsp : s.reg 7 = some sp) (hv : s.byteAt sp.toNat = some v) (htop : base sp v = 255) :
    Raises (exec i s) (.outOfRange .stackPointer 256) s := by
  refine exec_raises_of_effectOf_error ?_
  rw [heff, readReg_some hsp, ok_bind, memRead_some sp.isLt hv, ok_bind, htop, incrementedSp_of_top rfl, error_bind]

/-- POP completes where the cell SP addresses holds a byte and the incremented SP fits (R142). -/
theorem exec_pop_some (hsp : s.reg 7 = some sp) (hv : s.byteAt sp.toNat = some v)
    (hlt : (if r = 7 then v else sp).toNat < 255) :
    exec (.pop (regByte r)) s =
      .next (advancePc 2 (writeReg Config.spReg ((if r = 7 then v else sp).toNat + 1) (writeReg r v.toNat s))) := by
  simp only [exec_eq, effectOf, popEffect_regByte, readReg_some hsp, memRead_some sp.isLt hv, incrementedSp_of_lt hlt,
    ok_bind, commit_ok]

/-- POP into a register other than R7 leaves SP one higher (R142). -/
theorem exec_pop_of_ne (hr : r ≠ 7) (hsp : s.reg 7 = some sp) (hv : s.byteAt sp.toNat = some v) (hlt : sp.toNat < 255) :
    exec (.pop (regByte r)) s =
      .next (advancePc 2 (writeReg Config.spReg (sp.toNat + 1) (writeReg r v.toNat s))) := by
  simpa only [if_neg hr] using exec_pop_some (r := r) hsp hv (by rwa [if_neg hr])

/-- RET completes where the cell SP addresses holds a byte and SP is below 255 (R144). -/
theorem exec_ret_some (hsp : s.reg 7 = some sp) (hv : s.byteAt sp.toNat = some v) (hlt : sp.toNat < 255) :
    exec .ret s = .next (setPc v.toNat (writeReg Config.spReg (sp.toNat + 1) s)) := by
  simp only [exec_eq, effectOf, retEffect_eq, readReg_some hsp, memRead_some sp.isLt hv, incrementedSp_of_lt hlt, ok_bind,
    commit_ok]

end Pop

/-- Settles O28, by whether the cell SP addresses holds a byte and whether the incremented SP fits. -/
theorem popLoadsFromSp : Obligations.PopLoadsFromSp := by
  refine ⟨fun _ => rfl, fun s a sp hsp => ⟨fun v hv hlt => ?_, fun hnone => ?_, fun v hv htop => ?_⟩⟩
  · refine ⟨_, exec_pop_some hsp hv hlt, fun ha => ?_, ⟨_, by simp, toNat_ofNat_succ hlt⟩, ?_, rfl, rfl, rfl, rfl⟩
    · simp [ha.symm]
    · exact (((Frame.refl [a, 7] [] s).writeReg (by simp) v.toNat).writeReg (by simp) _).congr rfl rfl rfl
  · exact exec_raises_unwritten_cell (popEffect_regByte a s) hsp hnone
  · exact exec_raises_sp_top (popEffect_regByte a s) hsp hv htop

/-- Settles O30, by the same two questions as POP. -/
theorem retPopsPc : Obligations.RetPopsPc := by
  refine ⟨rfl, fun s sp hsp => ⟨fun target htarget htop => ?_, fun hnone => ?_, fun hsome htop => ?_⟩⟩
  · have hlt := toNat_lt_255 htop
    refine ⟨_, exec_ret_some hsp htarget hlt, rfl, ⟨_, by simp, toNat_ofNat_succ hlt⟩, ?_, rfl, rfl, rfl⟩
    exact ((Frame.refl [7] [] s).writeReg (List.mem_singleton_self 7) _).congr rfl rfl rfl
  · exact exec_raises_unwritten_cell (retEffect_eq s) hsp hnone
  · obtain ⟨target, htarget⟩ := Option.isSome_iff_exists.1 hsome
    exact exec_raises_sp_top (retEffect_eq s) hsp htarget htop

/-! ### The stack pointer's range -/

/-- Settles O41, from the rules of the four instructions. -/
theorem stackPointerNeverWraps : Obligations.StackPointerNeverWraps := by
  refine ⟨fun s a h0 => ⟨exec_raises_sp_zero rfl h0, exec_raises_sp_zero rfl h0⟩, fun s a v hsp hv ha => ⟨?_, ?_⟩,
    fun s sp hsp hv => ?_, fun s a sp hsp h0 hpc => ?_, fun s a sp hsp h0 hsome => ?_,
    fun s a sp v hsp htop hv => ⟨fun ha => ?_, ?_⟩, fun s sp v hsp hv htop => ?_⟩
  · exact exec_raises_sp_top (popEffect_regByte a s) hsp hv (if_neg ha)
  · exact exec_raises_sp_top (retEffect_eq s) hsp hv rfl
  · exact exec_raises_sp_top (popEffect_regByte 7 s) hsp hv rfl
  · have hraise := exec_call_of_return_ge (r := a) (pushSlot_of_ne_zero hsp h0) (by omega)
    rwa [hpc] at hraise
  · have hslot := pushSlot_of_ne_zero hsp h0
    obtain ⟨v, hv⟩ := readAfterDecrement_of_isSome (sp.toNat - 1) hsome
    have hdec : (BitVec.ofNat 8 (sp.toNat - 1)).toNat + 1 = sp.toNat := by
      rw [toNat_ofNat_pushSlot hslot, pushSlot_succ hslot hsp]
    exact ⟨⟨_, _, exec_push_some hslot hv, rfl, by simp, hdec⟩,
      fun hpc => ⟨_, _, exec_call_some hslot hpc hv, rfl, by simp, hdec⟩⟩
  · have hlt := toNat_lt_255 htop
    exact ⟨_, _, exec_pop_of_ne ha hsp hv hlt, rfl, by simp [ha.symm], by simp, toNat_ofNat_succ hlt⟩
  · exact ⟨_, _, exec_ret_some hsp hv (toNat_lt_255 htop), rfl, rfl, by simp, toNat_ofNat_succ (toNat_lt_255 htop)⟩
  · exact ⟨_, _, exec_pop_some (r := 7) hsp hv (toNat_lt_255 htop), rfl, by simp, toNat_ofNat_succ (toNat_lt_255 htop)⟩

/-! ### A push, then a pop -/

section Restore

variable {s : State} {slot : Nat} (hslot : pushSlot s = .ok slot)
include hslot

/-- The stack cell a push stored to is the one SP then addresses (R140). -/
theorem byteAt_pushed (v : Byte) : (storeByte slot v s).byteAt (BitVec.ofNat 8 slot).toNat = some v := by
  rw [toNat_ofNat_pushSlot hslot, storeByte_byteAt, if_pos rfl]

/-- The decremented SP is below 255, so that it can be incremented (R140, R145 b). -/
theorem toNat_ofNat_pushSlot_lt : (BitVec.ofNat 8 slot).toNat < 255 :=
  (toNat_ofNat_pushSlot hslot).trans_lt (pushSlot_lt hslot)

/-- Incrementing the decremented SP restores it, and so every register where the others are as before (R140). -/
theorem reg_of_sp_restored {t : State} {q : Reg} (hother : q ≠ 7 → t.reg q = s.reg q) :
    (writeReg Config.spReg ((BitVec.ofNat 8 slot).toNat + 1) t).reg q = s.reg q := by
  by_cases hq : q = 7
  · subst hq
    obtain ⟨sp, hsp, hsucc⟩ := pushSlot_ok hslot
    rw [writeReg_reg, if_pos rfl, toNat_ofNat_pushSlot hslot, ← hsucc, BitVec.ofNat_toNat, BitVec.setWidth_eq, hsp]
  · rw [writeReg_reg, if_neg (Ne.symm hq), hother hq]

end Restore

/-- Settles O42: a CALL that ends in RUNNING completed, and the RET pops what it pushed. -/
theorem retReturnsAfterCall : Obligations.RetReturnsAfterCall := by
  intro s t a hcall _ hrun
  obtain ⟨r, slot, ret, target, -, hslot, -, hret, -, rfl⟩ := callEffect_ok (effectOf_ok_of_running hcall hrun)
  obtain ⟨rfl, hpc⟩ := returnAddress_ok hret
  refine ⟨_, exec_ret_some (by simp) (byteAt_pushed hslot _) (toNat_ofNat_pushSlot_lt hslot), ?_, fun q => ?_, hrun⟩
  · exact Nat.mod_eq_of_lt hpc
  · exact reg_of_sp_restored hslot fun hq => by simp [hq.symm]

/-- Settles O43: a PUSH that ends in RUNNING completed, and the POP pops what it pushed. -/
theorem popRestoresPushedByte : Obligations.PopRestoresPushedByte := by
  intro s t a b ha hb hpush _ hrun
  obtain ⟨r, slot, v, hr, hslot, -, hread, rfl⟩ := pushEffect_ok (effectOf_ok_of_running hpush hrun)
  obtain rfl := regByte_inj.1 hr
  rw [readAfterDecrement_of_ne _ _ ha, readReg_ok] at hread
  refine ⟨_, slot, exec_pop_of_ne hb (by simp) (byteAt_pushed hslot v) (toNat_ofNat_pushSlot_lt hslot), hslot, ?_, ?_, ?_,
    fun q hq => ?_, rfl⟩
  · simp [hread, hb.symm]
  · exact reg_of_sp_restored hslot fun h7 => absurd rfl h7
  · simp [hread]
  · exact reg_of_sp_restored hslot fun hq7 => by simp [hq.symm, hq7.symm]

end Sys2Proof.Machine
end

section
/-! SUPPORT. The fatal errors: the fetch stage's, in their order (O8); a fault is precise (O12); which kinds no step
raises (O13); the status port (O50). -/

namespace Sys2Proof.Machine

open Sys2Proof

/-! ### The errors of the fetch stage -/

/-- The opcode fetch past address 255 (R81). -/
theorem fetchOpcode_of_ge {s : State} (hpc : 256 ≤ s.pc) : fetchOpcode s = .error (.outOfRange .fetch s.pc) :=
  memRead_of_not s (.inr (by omega))

/-- The opcode fetch of a cell that holds no value (R42, R81). -/
theorem fetchOpcode_none {s : State} (hpc : s.pc < 256) (h : s.byteAt s.pc = none) :
    fetchOpcode s = .error (.uninitialisedMemory s.pc) :=
  memRead_none hpc h

/-- The fetch of an operand byte past address 255 (R82). -/
theorem fetchOperand_of_ge {n k : Nat} {s : State} (hk : k < n) (hpc : 256 ≤ s.pc + k) :
    fetchOperand n k s = .error (.outOfRange .operand (s.pc + k : Nat)) := by
  rw [fetchOperand, if_pos hk]
  exact memRead_of_not s (.inr (by omega))

/-- The fetch of an operand byte whose cell holds no value (R42, R82). -/
theorem fetchOperand_none {n k : Nat} {s : State} (hk : k < n) (hpc : s.pc + k < 256) (h : s.byteAt (s.pc + k) = none) :
    fetchOperand n k s = .error (.uninitialisedMemory (s.pc + k)) := by
  rw [fetchOperand, if_pos hk]
  exact memRead_none hpc h

section OperandErrors

variable {s : State} {op : Byte} {o : Opcode} {e : FatalError} (hrun : s.run = .running) (hop : fetchOpcode s = .ok op)
  (ho : Opcode.ofByte op = some o)
include hrun hop ho

/-- A step takes the fatal error that the fetch of op1 raises, with the opcode in IR (R82, R163). -/
theorem step_raises_of_op1_error (hop1 : fetchOperand o.length 1 s = .error e) : Raises (step s) e (setIr op s) := by
  refine step_of_fetchInstr_error hrun hop ((fetchInstr_congr op rfl rfl).trans (?_ : fetchInstr op s = _))
  simp only [fetchInstr, ho, hop1, error_bind]

/-- A step whose op1 is fetched takes the fatal error that the fetch of op2 raises, with the opcode in IR (R82, R163). -/
theorem step_raises_of_op2_error {a : Byte} (hop1 : fetchOperand o.length 1 s = .ok a)
    (hop2 : fetchOperand o.length 2 s = .error e) : Raises (step s) e (setIr op s) := by
  refine step_of_fetchInstr_error hrun hop ((fetchInstr_congr op rfl rfl).trans (?_ : fetchInstr op s = _))
  simp only [fetchInstr, ho, hop1, hop2, ok_bind, error_bind]

end OperandErrors

/-- Settles O8: the fetch of the opcode, its lookup, the fetch of op1 and the fetch of op2 each raise only after those
before them raised nothing. -/
theorem fetchErrorsInOrder : Obligations.FetchErrorsInOrder := by
  intro s hrun hwf
  refine ⟨fun hpc => step_of_fetchOpcode_error hrun (fetchOpcode_of_ge hpc),
    fun hpc hnone => step_of_fetchOpcode_error hrun (fetchOpcode_none hpc hnone), fun op hbyte => ?_⟩
  have hop : fetchOpcode s = .ok op := fetchOpcode_some (State.byteAt_lt hwf hbyte) hbyte
  refine ⟨fun hunknown => step_of_fetchInstr_error hrun hop (fetchInstr_of_ofByte_none hunknown _), fun o ho => ?_⟩
  have hop1 (hlen : o.length = 3) (hsome : (s.byteAt (s.pc + 1)).isSome = true) :
      ∃ a, fetchOperand o.length 1 s = .ok a := by
    obtain ⟨a, ha⟩ := Option.isSome_iff_exists.1 hsome
    exact ⟨a, fetchOperand_some (by omega) (State.byteAt_lt hwf ha) ha⟩
  refine ⟨fun hlen hpc => ?_, fun hlen hpc hnone => ?_, fun hlen hsome hpc => ?_, fun hlen hsome hpc hnone => ?_⟩
  · have herr := fetchOperand_of_ge (s := s) (k := 1) hlen (by omega)
    rw [hpc] at herr
    exact step_raises_of_op1_error hrun hop ho herr
  · exact step_raises_of_op1_error hrun hop ho (fetchOperand_none hlen (by omega) hnone)
  · obtain ⟨a, ha⟩ := hop1 hlen hsome
    have herr := fetchOperand_of_ge (n := o.length) (s := s) (k := 2) (by omega) (by omega)
    rw [hpc] at herr
    exact step_raises_of_op2_error hrun hop ho ha herr
  · obtain ⟨a, ha⟩ := hop1 hlen hsome
    exact step_raises_of_op2_error hrun hop ho ha (fetchOperand_none (by omega) (by omega) hnone)

/-! ### Faults are precise -/

/-- In canonical memory an opcode fetch raises only where the cell at pc holds no value (R7, R81). -/
theorem byteAt_pc_of_fetchOpcode_error {s : State} {e : FatalError} (hwf : Memory.wf s.mem = true)
    (h : fetchOpcode s = .error e) : s.byteAt s.pc = none := by
  cases hbyte : s.byteAt s.pc with
  | none => rfl
  | some op =>
    rw [fetchOpcode_some (State.byteAt_lt hwf hbyte) hbyte] at h
    cases h

/-- Settles O12, by the three ends of a step: the two that raise change the run state and IR only, and an instruction that
completes is not in FAULTED. -/
theorem faultsArePrecise : Obligations.FaultsArePrecise := by
  intro s t r hwf hstep hr
  obtain ⟨hrun, hend⟩ := step_end hstep
  cases hend with
  | unfetched e hf =>
    cases hr
    exact ⟨rfl, rfl, fun _ => rfl, fun _ => rfl, rfl, rfl, by simp [byteAt_pc_of_fetchOpcode_error hwf hf]⟩
  | raised op e hpc hop =>
    cases hr
    exact ⟨rfl, rfl, fun _ => rfl, fun _ => rfl, rfl, rfl, by simp [hop]⟩
  | completed i _ _ hc => exact absurd hr (hc.run_ne_faulted hrun r)

/-! ### The kinds that no step raises -/

/-- An error that the core may raise: neither one of the loader's nor UnsupportedOperation (R85, R160). -/
def FatalError.OfCore (e : FatalError) : Prop :=
  e ≠ .formatError ∧ e ≠ .unsupportedOperation ∧ ∀ v, e ≠ .outOfRange .load v

/-- Whatever a computation raises is an error that the core may raise. -/
def RaisesOnlyOfCore {α : Type} (x : Except FatalError α) : Prop := ∀ e, x = .error e → e.OfCore

namespace RaisesOnlyOfCore

/-- An answer raises nothing. -/
theorem ok {α : Type} (a : α) : RaisesOnlyOfCore (.ok a) := nofun

/-- A raise of an error that the core may raise. -/
theorem error {α : Type} {e : FatalError} (h : e.OfCore) : RaisesOnlyOfCore (.error e : Except FatalError α) := by
  rintro _ ⟨⟩
  exact h

/-- A sequence of computations raises only what they raise. -/
theorem bind {α β : Type} {x : Except FatalError α} {f : α → Except FatalError β} (hx : RaisesOnlyOfCore x)
    (hf : ∀ a, RaisesOnlyOfCore (f a)) : RaisesOnlyOfCore (x >>= f) := by
  intro e h
  rcases bind_error h with h | ⟨a, -, h⟩
  · exact hx e h
  · exact hf a e h

/-- A memory read that is not the loader's (R42). -/
theorem memRead {access : Access} (h : access ≠ .load) (a : Int) (s : State) :
    RaisesOnlyOfCore (memRead access a s) := by
  intro e he
  rcases memRead_error he with ⟨rfl, -⟩ | ⟨n, -, -, -, rfl⟩
  · exact ⟨nofun, nofun, fun v hv => h (FatalError.outOfRange.inj hv).1⟩
  · exact ⟨nofun, nofun, nofun⟩

/-- A memory write that is not the loader's (R43). -/
theorem memWrite {access : Access} (h : access ≠ .load) (a : Int) (v : Byte) (s : State) :
    RaisesOnlyOfCore (memWrite access a v s) := by
  intro e he
  obtain ⟨rfl, -⟩ := memWrite_error he
  exact ⟨nofun, nofun, fun v hv => h (FatalError.outOfRange.inj hv).1⟩

/-- A register read (R23). -/
theorem readReg (r : Reg) (s : State) : RaisesOnlyOfCore (readReg r s) := by
  intro e he
  obtain ⟨-, rfl⟩ := readReg_error he
  exact ⟨nofun, nofun, nofun⟩

/-- A register operand (R64). -/
theorem regOperand (b : Byte) : RaisesOnlyOfCore (regOperand b) := by
  intro e he
  obtain ⟨-, rfl⟩ := regOperand_error he
  exact ⟨nofun, nofun, nofun⟩

/-- The stack address of a PUSH or CALL (R145 a). -/
theorem pushSlot (s : State) : RaisesOnlyOfCore (pushSlot s) := by
  intro e he
  rcases pushSlot_error he with ⟨-, rfl⟩ | ⟨-, rfl⟩ <;> exact ⟨nofun, nofun, nofun⟩

/-- The register operand of a PUSH or CALL (R141). -/
theorem readAfterDecrement (r : Reg) (slot : Nat) (s : State) : RaisesOnlyOfCore (readAfterDecrement r slot s) := by
  intro e he
  obtain ⟨-, -, rfl⟩ := readAfterDecrement_error he
  exact ⟨nofun, nofun, nofun⟩

/-- The incremented SP of a POP or RET (R145 b). -/
theorem incrementedSp (b : Byte) : RaisesOnlyOfCore (incrementedSp b) := by
  intro e he
  obtain ⟨-, rfl⟩ := incrementedSp_error he
  exact ⟨nofun, nofun, nofun⟩

/-- The return address of a CALL (R145 c). -/
theorem returnAddress (s : State) : RaisesOnlyOfCore (returnAddress s) := by
  intro e he
  obtain ⟨-, rfl⟩ := returnAddress_error he
  exact ⟨nofun, nofun, nofun⟩

/-- The quotient of a DIV (R112). -/
theorem divValue (rb : Reg) (x y : Byte) : RaisesOnlyOfCore (divValue rb x y) := by
  unfold Machine.divValue
  split
  · exact error ⟨nofun, nofun, nofun⟩
  · exact ok _

/-- The operands of an ALU instruction (R23, R64). -/
theorem aluOperands (a b : Byte) (s : State) : RaisesOnlyOfCore (aluOperands a b s) :=
  bind (regOperand a) fun ra => bind (regOperand b) fun rb => bind (readReg ra s) fun _ => bind (readReg rb s) fun _ =>
    ok _

/-- MULT, ADD, DIV and AND raise only what their value operation may (R115). -/
theorem aluEffect {f : Reg → Byte → Byte → Except FatalError Nat} (hf : ∀ rb x y, RaisesOnlyOfCore (f rb x y))
    (a b : Byte) (s : State) : RaisesOnlyOfCore (aluEffect f a b s) :=
  bind (aluOperands a b s) fun ⟨_, rb, x, y⟩ => bind (hf rb x y) fun _ => ok _

/-- A jump (R130). -/
theorem jumpEffect (taken : Bool) (a : Byte) (s : State) : RaisesOnlyOfCore (jumpEffect taken a s) := by
  refine bind (regOperand a) fun r => ?_
  cases taken with
  | true => exact bind (readReg r s) fun _ => ok _
  | false => exact ok _

/-- An instruction, by the parts of its effect in their order (R160). -/
theorem effectOf (i : Instr) (s : State) : RaisesOnlyOfCore (effectOf i s) := by
  cases i with
  | hlt => exact ok _
  | ldi a v => exact bind (regOperand a) fun _ => ok _
  | prn a => exact bind (regOperand a) fun r => bind (readReg r s) fun _ => ok _
  | mult a b => exact aluEffect (f := multValue) (fun _ _ _ => ok _) a b s
  | add a b => exact aluEffect (f := addValue) (fun _ _ _ => ok _) a b s
  | and a b => exact aluEffect (f := andValue) (fun _ _ _ => ok _) a b s
  | div a b => exact aluEffect divValue a b s
  | cmp a b => exact bind (aluOperands a b s) fun _ => ok _
  | jmp a | jeq a | jne a => exact jumpEffect _ a s
  | push a =>
    exact bind (regOperand a) fun r => bind (pushSlot s) fun slot => bind (readAfterDecrement r slot s) fun v =>
      bind (memWrite (by decide) slot v s) fun _ => ok _
  | pop a =>
    exact bind (regOperand a) fun _ => bind (readReg _ s) fun sp => bind (memRead (by decide) _ s) fun _ =>
      bind (incrementedSp _) fun _ => ok _
  | call a =>
    exact bind (regOperand a) fun r => bind (pushSlot s) fun slot => bind (returnAddress s) fun ret =>
      bind (readAfterDecrement r slot s) fun _ => bind (memWrite (by decide) slot ret s) fun _ => ok _
  | ret =>
    exact bind (readReg _ s) fun sp => bind (memRead (by decide) _ s) fun _ => bind (incrementedSp sp) fun _ => ok _

/-- The fetch of an operand byte (R82). -/
theorem fetchOperand (n k : Nat) (s : State) : RaisesOnlyOfCore (fetchOperand n k s) := by
  unfold Machine.fetchOperand
  split
  · exact memRead (by decide) _ s
  · exact ok _

/-- The decode stage (R64, R66, R82). -/
theorem fetchInstr (op : Byte) (s : State) : RaisesOnlyOfCore (fetchInstr op s) := by
  unfold Machine.fetchInstr
  split
  · exact error ⟨nofun, nofun, nofun⟩
  · refine bind (fetchOperand _ 1 s) fun op1 => bind (fetchOperand _ 2 s) fun op2 => ?_
    split
    · exact error ⟨nofun, nofun, nofun⟩
    · exact ok _

end RaisesOnlyOfCore

/-- Settles O13, by the stage that raised: the opcode fetch, the decode stage or the instruction. -/
theorem coreNeverRaisesLoaderErrors : Obligations.CoreNeverRaisesLoaderErrors := by
  intro s t r hstep hr
  obtain ⟨hrun, ⟨e, hf, rfl⟩ | ⟨op, -, -, ⟨e, hi, rfl⟩ | ⟨i, -, hexec⟩⟩⟩ := step_cases hstep
  · cases hr
    exact RaisesOnlyOfCore.memRead (by decide) _ s e hf
  · cases hr
    exact RaisesOnlyOfCore.fetchInstr op _ e hi
  · rcases exec_cases hexec with hok | ⟨e, he, rfl⟩
    · exact absurd hr ((effectOf_ok hok).run_ne_faulted hrun r)
    · cases hr
      exact RaisesOnlyOfCore.effectOf i _ e he

/-! ### The status port -/

/-- Settles O50: the port shows the run state, which in a state that has raised an error is FAULTED with it. -/
theorem statusPortShowsRunState : Obligations.StatusPortShowsRunState := by
  refine ⟨fun s hrun => ?_, fun s hrun => ?_, fun s e => ⟨rfl, rfl, rfl⟩, rfl, fun _ _ => rfl, fun _ => rfl, rfl,
    fun _ => rfl, fun _ => rfl, fun _ => rfl⟩
  · simp only [faultCode, statusPort, hostSuccess, hrun, and_self]
  · simp only [faultCode, statusPort, hostSuccess, hrun, and_self]

end Sys2Proof.Machine
end

section
/-! SUPPORT. Reset (O46), the load port (O48), the invariant from reset through a load along a run (O52, O53), and the lines
of a program file (O49). -/

namespace Sys2Proof.Machine

open Sys2Proof

/-! ### Reset -/

/-- A register after reset: R7 holds 0xF4, every other one no value (R22, R23). -/
theorem resetWith_reg (eqDraw : Bool) (irDraw : Byte) (r : Reg) :
    (State.resetWith eqDraw irDraw).reg r = if r = 7 then some 0xF4 else none := by
  fin_cases r <;> rfl

/-- Settles O46. -/
theorem resetState : Obligations.ResetState :=
  ⟨fun eqDraw irDraw =>
    ⟨fun r hr => (resetWith_reg eqDraw irDraw r).trans (if_neg hr), resetWith_reg eqDraw irDraw 7, rfl, rfl, rfl, rfl,
      fun _ => rfl, rfl⟩,
    Config.eqReset, Config.irReset, rfl⟩

/-- Settles O52: memory is empty, and RUNNING leaves nothing to show of a fault record or a HLT. -/
theorem resetHasInvariant : Obligations.ResetHasInvariant := fun eqDraw irDraw =>
  { memCanonical := nil_wf
    spHoldsValue := by simp [resetWith_reg]
    pcInRange := Nat.zero_le _
    faultAtPc := nofun
    haltedIr := nofun
    haltedAtHlt := nofun }

/-! ### The load port -/

/-- Placing bytes from `a` leaves the cells before `a` alone. -/
theorem cell_placeBytes_of_lt {a b : Nat} (hb : b < a) (bs : List Byte) (m : List Host.Cell) :
    Memory.cell (placeBytes a bs m) b = Memory.cell m b := by
  induction bs generalizing a m with
  | nil => rfl
  | cons v bs ih =>
    rw [placeBytes, ih (Nat.lt_succ_of_lt hb)]
    split
    · exact cell_put_other m v (Nat.ne_of_lt hb)
    · rfl

/-- Bytes placed from `a` that all fit lie there in their order, and the cells after them are as before. -/
theorem cell_placeBytes_add {a : Nat} {bs : List Byte} (hfit : a + bs.length ≤ 256) (m : List Host.Cell) (k : Nat) :
    Memory.cell (placeBytes a bs m) (a + k) = bs[k]?.or (Memory.cell m (a + k)) := by
  induction bs generalizing a m k with
  | nil => simp [placeBytes]
  | cons v bs ih =>
    rw [List.length_cons] at hfit
    rw [placeBytes, if_pos (show a < Config.memSize by simp only [Config.memSize]; omega)]
    cases k with
    | zero => simp [cell_placeBytes_of_lt]
    | succ k =>
      have hother : Memory.cell (Memory.put m a v) (a + 1 + k) = Memory.cell m (a + 1 + k) :=
        cell_put_other m v (by omega)
      rw [Nat.add_comm k 1, ← Nat.add_assoc, ih (by omega), hother, Nat.add_comm 1 k, List.getElem?_cons_succ]

/-- Placing bytes keeps the canonical form. -/
theorem placeBytes_wf {m : List Host.Cell} (h : Memory.wf m = true) (a : Nat) (bs : List Byte) :
    Memory.wf (placeBytes a bs m) = true := by
  induction bs generalizing a m with
  | nil => exact h
  | cons v bs ih =>
    refine ih ?_ (a + 1)
    split
    · exact put_wf v h (by assumption)
    · exact h

/-- An image written from `a`: where it ends by address 255 its bytes are placed and nothing else changes, else the write
to address 256 is out of range (R40, R183). -/
theorem writeImage_eq {a : Nat} (ha : a ≤ 256) (image : List Byte) (s : State) :
    writeImage a image s =
      if a + image.length ≤ 256 then .ok { s with mem := placeBytes a image s.mem }
      else .error (.outOfRange .load 256) := by
  induction image generalizing a s with
  | nil => exact (if_pos ha).symm
  | cons b bs ih =>
    rw [List.length_cons, Nat.add_comm bs.length, ← Nat.add_assoc]
    rcases Nat.lt_or_eq_of_le ha with hlt | rfl
    · simp only [writeImage, memWrite_of_lt _ b s hlt, ih hlt, placeBytes, Config.memSize, if_pos hlt, storeByte]
    · rw [if_neg (by omega)]
      rfl

/-- The load of an image at address 0 of the reset state (R180, R183). -/
theorem loadWith_eq (eqDraw : Bool) (irDraw : Byte) (image : List Byte) :
    State.loadWith eqDraw irDraw image =
      if image.length ≤ 256 then .ok { State.resetWith eqDraw irDraw with mem := placeBytes 0 image [] }
      else .error (.outOfRange .load 256) := by
  rw [State.loadWith, writeImage_eq (Nat.zero_le 256), Nat.zero_add]
  rfl

/-- Settles O48. -/
theorem loadPlacesImageAtZero : Obligations.LoadPlacesImageAtZero := by
  intro image eqDraw irDraw
  rw [loadWith_eq]
  refine ⟨fun hle => ⟨_, if_pos hle, fun a => ?_, rfl⟩, fun hlt => if_neg (Nat.not_le.2 hlt)⟩
  have hcell := cell_placeBytes_add (a := 0) (by rwa [Nat.zero_add]) [] a
  rwa [Nat.zero_add, Memory.cell, Option.or_none] at hcell

/-! ### The invariant along a run -/

/-- A successful load starts the run in a state that meets the invariant: reset meets it (O52), and only memory is written
(R180, R183). -/
theorem State.Inv.of_loadWith {eqDraw : Bool} {irDraw : Byte} {image : List Byte} {s : State}
    (h : State.loadWith eqDraw irDraw image = .ok s) : s.Inv := by
  rw [loadWith_eq] at h
  split at h
  · cases h
    exact { resetHasInvariant eqDraw irDraw with
      memCanonical := placeBytes_wf nil_wf 0 image
      haltedAtHlt := nofun }
  · cases h

/-- A run of one more step: it takes the step, and the run goes on from there. -/
theorem run_succ_next {n : Nat} {s t : State} (h : Host.Core.run core (n + 1) s = .next t) :
    ∃ u, step s = .next u ∧ Host.Core.run core n u = .next t := by
  simp only [Host.Core.run] at h
  split at h
  · exact ⟨_, ‹_›, h⟩
  · cases h
  · cases h

/-- A run keeps the invariant, because every step does (O51). -/
theorem State.Inv.of_run {n : Nat} {s t : State} (hinv : s.Inv) (h : Host.Core.run core n s = .next t) : t.Inv := by
  induction n generalizing s with
  | zero =>
    cases h
    exact hinv
  | succ n ih =>
    obtain ⟨u, hstep, hrun⟩ := run_succ_next h
    exact ih (stepKeepsInvariant s u hinv hstep) hrun

/-- Settles O53: the load meets the invariant and the run keeps it. -/
theorem invariantAlongEveryRun : Obligations.InvariantAlongEveryRun := fun _ _ _ _ _ _ hload hrun =>
  (State.Inv.of_loadWith hload).of_run hrun

/-! ### Binary tokens -/

/-- A token and one more character: a digit doubles the value and adds itself, another character leaves none (R183). -/
theorem parseBinary_concat (token : List Char) (c : Char) :
    parseBinary (token ++ [c]) = (parseBinary token).bind (fun n =>
      if c = '0' then some (2 * n) else if c = '1' then some (2 * n + 1) else none) := by
  simp only [parseBinary, List.foldl_append, List.foldl_cons, List.foldl_nil]

/-- The character of a binary digit. -/
def digitChar (d : Bool) : Char := if d then '1' else '0'

/-- The base-2 value of digits, the most significant first. -/
def digitsValue (digits : List Bool) : Nat := digits.foldl (fun n d => 2 * n + d.toNat) 0

/-- A token of binary digits is its base-2 value (R183). -/
theorem parseBinary_map_digitChar (digits : List Bool) :
    parseBinary (digits.map digitChar) = some (digitsValue digits) := by
  induction digits using List.reverseRecOn with
  | nil => rfl
  | append_singleton ds d ih =>
    rw [List.map_append, List.map_singleton, parseBinary_concat, ih]
    cases d <;> simp [digitChar, digitsValue]

/-- A token with another character has no value (R183). -/
theorem parseBinary_eq_none {token : List Char} (h : ∃ c ∈ token, c ≠ '0' ∧ c ≠ '1') : parseBinary token = none := by
  obtain ⟨c, hc, h0, h1⟩ := h
  induction token using List.reverseRecOn with
  | nil => cases hc
  | append_singleton ds d ih =>
    rw [parseBinary_concat]
    rcases List.mem_append.1 hc with hds | hd
    · rw [ih hds]
      rfl
    · cases List.mem_singleton.1 hd
      simp [h0, h1]

/-! ### The lines of a program file -/

/-- A character of a token: neither a blank nor the start of a comment. -/
def isTokenChar (c : Char) : Bool := !isBlank c && c != '#'

/-- The two conditions on a character of a token. -/
theorem isTokenChar_iff {c : Char} : isTokenChar c = true ↔ isBlank c = false ∧ (c != '#') = true := by
  rw [isTokenChar, Bool.and_eq_true, Bool.not_eq_true']

/-- The character of a binary digit belongs to a token. -/
theorem isTokenChar_digitChar (d : Bool) : isTokenChar (digitChar d) = true := by
  cases d <;> decide

/-- A blank does not start a comment. -/
theorem ne_hash_of_isBlank {c : Char} (h : isBlank c = true) : (c != '#') = true := by
  rw [bne_iff_ne]
  rintro rfl
  cases h

/-- Dropping the blanks before a token leaves it, with what follows it. -/
theorem dropWhile_isBlank_append {blanks token : List Char} (hblanks : ∀ c ∈ blanks, isBlank c = true)
    (htoken : ∀ c ∈ token, isTokenChar c = true) (hne : token ≠ []) (rest : List Char) :
    (blanks ++ (token ++ rest)).dropWhile isBlank = token ++ rest := by
  obtain ⟨c, cs, rfl⟩ := List.exists_cons_of_ne_nil hne
  have hc : ¬ isBlank c = true := by simpa using (isTokenChar_iff.1 (htoken c List.mem_cons_self)).1
  rw [List.dropWhile_append_of_pos hblanks, List.cons_append, List.dropWhile_cons_of_neg hc]

/-- The significant part of a token, blanks and a comment, each of which may be absent, is the token (R183; the blanks
are log 10). -/
theorem significant_append {token blanks comment : List Char} (htoken : ∀ c ∈ token, isTokenChar c = true)
    (hblanks : ∀ c ∈ blanks, isBlank c = true) (hcomment : comment.takeWhile (· != '#') = []) :
    significant (token ++ (blanks ++ comment)) = token := by
  have hcode : (token ++ (blanks ++ comment)).takeWhile (· != '#') = token ++ blanks := by
    rw [List.takeWhile_append_of_pos fun c hc => (isTokenChar_iff.1 (htoken c hc)).2,
      List.takeWhile_append_of_pos fun c hc => ne_hash_of_isBlank (hblanks c hc), hcomment, List.append_nil]
  rw [significant, hcode]
  by_cases hne : token = []
  · rw [hne, List.nil_append, List.dropWhile_eq_nil_iff.2 hblanks]
    rfl
  · have hfront : (token ++ blanks).dropWhile isBlank = token ++ blanks :=
      dropWhile_isBlank_append (blanks := []) nofun htoken hne blanks
    have hback : (blanks.reverse ++ token.reverse).dropWhile isBlank = token.reverse := by
      simpa using dropWhile_isBlank_append (blanks := blanks.reverse) (token := token.reverse)
        (by simpa using hblanks) (by simpa using htoken) (by simpa using hne) []
    rw [hfront, List.reverse_append, hback, List.reverse_reverse]

/-- The significant part of a token alone, with a comment at once, or with a blank and a comment (R183; log 10). -/
theorem significant_token {token comment suffix : List Char} (htoken : ∀ c ∈ token, isTokenChar c = true)
    (hsuffix : suffix ∈ [[], '#' :: comment, ' ' :: '#' :: comment]) : significant (token ++ suffix) = token := by
  simp only [List.mem_cons, List.not_mem_nil, or_false] at hsuffix
  rcases hsuffix with rfl | rfl | rfl
  · exact significant_append (blanks := []) (comment := []) htoken nofun rfl
  · exact significant_append (blanks := []) (comment := '#' :: comment) htoken nofun rfl
  · exact significant_append (blanks := [' ']) (comment := '#' :: comment) htoken (List.forall_mem_singleton.2 rfl) rfl

/-- A line with nothing significant is skipped (R183). -/
theorem parseLine_of_significant_nil {line : List Char} (h : significant line = []) : parseLine line = .ok none := by
  simp only [parseLine, h]

/-- A line whose significant part has a value is that byte, or FormatError above 255 (R183, decision D19). -/
theorem parseLine_of_parseBinary_some {line : List Char} {n : Nat} (hne : significant line ≠ [])
    (hn : parseBinary (significant line) = some n) :
    parseLine line = if n < 256 then .ok (some (BitVec.ofNat 8 n)) else .error .formatError := by
  unfold parseLine
  split
  · contradiction
  · simp only [hn]

/-- A line whose significant part has no value is FormatError (R183). -/
theorem parseLine_of_parseBinary_none {line : List Char} (hn : parseBinary (significant line) = none) :
    parseLine line = .error .formatError := by
  unfold parseLine
  split
  · rename_i hnil
    rw [hnil] at hn
    cases hn
  · simp only [hn]

/-- Settles O49, by the significant part of each kind of line. -/
theorem loaderLines : Obligations.LoaderLines := by
  refine ⟨fun digits comment suffix hne hsuffix => ?_, fun comment => ?_, ?_, fun line hbad => ?_⟩
  · have hsig : significant (digits.map digitChar ++ suffix) = digits.map digitChar :=
      significant_token (List.forall_mem_map.2 fun d _ => isTokenChar_digitChar d) hsuffix
    have hline : parseLine (digits.map digitChar ++ suffix) = _ :=
      parseLine_of_parseBinary_some (by simpa [hsig] using hne) (by rw [hsig, parseBinary_map_digitChar])
    exact ⟨fun hlt => hline.trans (if_pos hlt), fun hge => hline.trans (if_neg (Nat.not_lt.2 hge))⟩
  · exact parseLine_of_significant_nil (significant_append (token := []) (blanks := []) nofun nofun rfl)
  · rfl
  · exact parseLine_of_parseBinary_none (parseBinary_eq_none hbad)

end Sys2Proof.Machine
end

section
/-! SUPPORT. Register operands above 7 in an instruction that is not well formed: `exec` checks them again (O10, log 8). -/

namespace Sys2Proof.Machine

open Sys2Proof

/-- The index check that fails, as a bound (R64). -/
theorem regIndexOk_eq_false_iff {b : Byte} : regIndexOk b = false ↔ 8 ≤ b.toNat := by
  rw [← Bool.not_eq_true, regIndexOk_iff, Nat.not_lt]

/-- A register operand 0..7 is accepted (R62). -/
theorem regOperand_of_lt {b : Byte} (h : b.toNat < 8) : regOperand b = .ok ⟨b.toNat, h⟩ := dif_pos h

/-- Executing `i` raises OutOfRange with the first of its operand bytes above 7 (log 8). -/
def RaisesFirstBadOperand (i : Instr) (s : State) : Prop :=
  ∃ b, i.operands.find? (fun b => decide (8 ≤ b.toNat)) = some b ∧
    Raises (exec i s) (.outOfRange .registerIndex b.toNat) s

section BadOperand

variable {i : Instr} {s : State} {a b : Byte}

/-- An instruction that begins by resolving its first operand raises on one above 7, whatever follows. -/
theorem raisesFirstBadOperand_of_fst {bs : List Byte} {rest : Reg → Except FatalError State} (hops : i.operands = a :: bs)
    (heff : effectOf i s = regOperand a >>= rest) (ha : regIndexOk a = false) : RaisesFirstBadOperand i s := by
  have hge : 8 ≤ a.toNat := regIndexOk_eq_false_iff.1 ha
  refine ⟨a, ?_, exec_raises_of_effectOf_error ?_⟩
  · rw [hops]
    exact List.find?_cons_of_pos (decide_eq_true hge)
  · rw [heff, regOperand_of_ge hge, error_bind]

/-- An instruction that begins by resolving two operands raises on the second where only that one is above 7. -/
theorem raisesFirstBadOperand_of_snd {rest : Reg × Reg × Byte × Byte → Except FatalError State}
    (hops : i.operands = [a, b]) (heff : effectOf i s = aluOperands a b s >>= rest) (ha : regIndexOk a = true)
    (hb : regIndexOk b = false) : RaisesFirstBadOperand i s := by
  have hlt : a.toNat < 8 := regIndexOk_iff.1 ha
  have hge : 8 ≤ b.toNat := regIndexOk_eq_false_iff.1 hb
  refine ⟨b, ?_, exec_raises_of_effectOf_error ?_⟩
  · rw [hops, List.find?_cons_of_neg (by simpa using hlt)]
    exact List.find?_cons_of_pos (decide_eq_true hge)
  · rw [heff, aluOperands, regOperand_of_lt hlt, ok_bind, regOperand_of_ge hge, error_bind, error_bind]

/-- An instruction of format RR raises on the first of its two operands that is above 7 (R64's order). -/
theorem raisesFirstBadOperand_of_rr {rest : Reg × Reg × Byte × Byte → Except FatalError State}
    (hops : i.operands = [a, b]) (heff : effectOf i s = aluOperands a b s >>= rest)
    (hbad : (regIndexOk a && regIndexOk b) = false) : RaisesFirstBadOperand i s := by
  cases ha : regIndexOk a with
  | false => exact raisesFirstBadOperand_of_fst hops (heff.trans (bind_assoc _ _ _)) ha
  | true => exact raisesFirstBadOperand_of_snd hops heff ha (by rwa [ha, Bool.true_and] at hbad)

end BadOperand

/-- Settles O10, by the format: every effect begins by resolving its register operands, op1 before op2. -/
theorem execChecksRegisterIndices : Obligations.ExecChecksRegisterIndices := by
  intro i s hbad
  cases i with
  | hlt | ret => cases hbad
  | ldi | prn | jmp | jeq | jne | push | pop | call => exact raisesFirstBadOperand_of_fst rfl rfl hbad
  | mult | add | div | and | cmp => exact raisesFirstBadOperand_of_rr rfl rfl hbad

end Sys2Proof.Machine
end
